-- ==== Sys2Proof/Word.lean ====
section
/-! DEFINITION. The two word types of the spec: a byte of an input port (R22) and the 32-bit frame
(R29, R41), with bits numbered from 0, the least significant (R9). -/

namespace Sys2Proof

/-- One byte of a frame, as one input port carries it (R22). Bit 7 is its most significant bit (R9). -/
abbrev Byte := BitVec 8

/-- The 32-bit frame (R41): bit 31 is the most significant bit of byte0 (R9, R30). -/
abbrev Frame := BitVec 32

end Sys2Proof
end

