-- ==== Sys2Proof/Config.lean ====
section
/-! DEFINITION. The parameters of rule R8: what is fixed when the core is built. `OUT_W` and `REF_SHIFT` are
the two options (R4, R20); the rest is fixed by the frame format. `T_SETTLE` is left open and has no value here.
Every settled output is defined; the free values at the end are what the outputs show before they settle (R99). -/

namespace Sys2Proof

/-- FRAME_BYTES of R8: the number of input bytes. -/
abbrev Config.frameBytes : Nat := 4

/-- FRAME_W of R8: the width of the frame in bits. -/
abbrev Config.frameW : Nat := 32

/-- TC_HI of R8: the thermocouple field's top bit, its sign (R43). -/
abbrev Config.tcHi : Nat := 31

/-- TC_LO of R8. -/
abbrev Config.tcLo : Nat := 18

/-- TC_SHIFT of R8: the arithmetic right shift applied to the thermocouple field (R65). -/
abbrev Config.tcShift : Nat := 2

/-- REF_HI of R8: the reference field's top bit, its sign (R44). -/
abbrev Config.refHi : Nat := 15

/-- REF_LO of R8. -/
abbrev Config.refLo : Nat := 4

/-- The two build-time options of R4 and R8. They are no registers: nothing reads or writes them (R20). -/
structure Params where
  /-- OUT_W: the width of each temperature output. -/
  outW : Nat
  /-- REF_SHIFT: the arithmetic right shift applied to the reference field. -/
  refShift : Nat
deriving DecidableEq, Repr

/-- OUT_W of this hardware (R4, R8; log entry 6). -/
abbrev Config.outW : Nat := 16

/-- REF_SHIFT of this hardware (R4, R8; log entry 6). -/
abbrev Config.refShift : Nat := 0

/-- This hardware's configuration: OUT_W = 16, REF_SHIFT = 0 (R4). -/
def Config.thisHardware : Params := ⟨Config.outW, Config.refShift⟩

/-- T_SETTLE, the settling time of the outputs, which the spec names and leaves open (R99, R100). A constant
with no value. No definition reads it: no rule depends on timing, and the model has no time (log entry 9). -/
opaque Config.tSettle : Nat

/-! The free values: what an output port shows while it has not settled on the frame presented. R99 leaves it
undefined and I9 of spec/93 makes it any value; nothing constrains these constants. Each is applied to the
counter of free values that `State` holds, so that every read may show another value (log entries 3 and 15). -/

/-- What `tc_c` shows before it settles. -/
opaque Config.unsettledTcC : Nat → BitVec Config.outW

/-- What `ref_c` shows before it settles. -/
opaque Config.unsettledRefC : Nat → BitVec Config.outW

/-- What `faults[2:0]` shows before it settles. -/
opaque Config.unsettledFaults : Nat → BitVec 3

/-- What `has_fault` shows before it settles. -/
opaque Config.unsettledHasFault : Nat → Bool

end Sys2Proof
end

