-- ==== Sys2Proof/Syntax.lean ====
section
/-! DEFINITION. The syntax: the output ports, the four operations with the operand each draws from the
frame (R51, R52), one DECODE line and a program (R53), and the field values a frame is built from (R54). -/

namespace Sys2Proof

/-- The four output ports of R23. An operation is named by the port that carries its result (R52). -/
inductive Port where
  /-- `tc_c`, the thermocouple temperature. -/
  | tcC
  /-- `ref_c`, the reference temperature. -/
  | refC
  /-- `faults[2:0]`, the three individual fault flags. -/
  | faults
  /-- `has_fault`, the aggregate fault flag. -/
  | hasFault
deriving DecidableEq, Repr

/-- The four operations of the opcode table (R52), each with the operand it draws from the frame (R51). -/
inductive Instr where
  /-- TC_CELSIUS: the 14-bit field `frame[31:18]` (R65). -/
  | tcCelsius (tc : BitVec 14)
  /-- REF_CELSIUS: the 12-bit field `frame[15:4]` (R68). -/
  | refCelsius (ref : BitVec 12)
  /-- FAULT_FLAGS: the single bits `frame[0]`, `frame[1]` and `frame[2]` (R72). -/
  | faultFlags (oc scg scv : Bool)
  /-- HAS_FAULT: the single bit `frame[16]` (R74). -/
  | hasFault (fault : Bool)
deriving DecidableEq, Repr

/-- The output port that carries an operation's result (the table of R52). -/
def Instr.port : Instr → Port
  | .tcCelsius _ => .tcC
  | .refCelsius _ => .refC
  | .faultFlags _ _ _ => .faults
  | .hasFault _ => .hasFault

/-- What the four input ports b0 … b3 carry (R22). A value of this type is one line
`DECODE b0, b1, b2, b3` of R53: one frame, given by its four bytes in buffer order. -/
structure InputPorts where
  /-- byte0, frame bits 31:24. -/
  b0 : Byte
  /-- byte1, frame bits 23:16. -/
  b1 : Byte
  /-- byte2, frame bits 15:8. -/
  b2 : Byte
  /-- byte3, frame bits 7:0. -/
  b3 : Byte
deriving DecidableEq, Repr

/-- A program of R53 and R97: a finite list of DECODE lines. -/
abbrev Program := List InputPorts

/-- The arguments of R54's `encode`, all eight fields of R42: the two signed fields as integers, the six
single bits as they are. `WellFormed` states the ranges of the integers. -/
structure FrameFields where
  /-- The TC field, in quarter degrees (R45). -/
  q : Int
  /-- The REF field, in field units (R46). -/
  r : Int
  /-- Reserved bit 17 (R48). -/
  rsv17 : Bool
  /-- The aggregate fault bit 16. -/
  fault : Bool
  /-- Reserved bit 3 (R48). -/
  rsv3 : Bool
  /-- Short to VCC, bit 2. -/
  scv : Bool
  /-- Short to GND, bit 1. -/
  scg : Bool
  /-- Open circuit, bit 0. -/
  oc : Bool
deriving DecidableEq, Repr

end Sys2Proof
end

