-- ==== Sys2Proof/Machine/State.lean ====
section
/-! DEFINITION. What the model holds. The core itself holds no state (R16): its machine state is the unit
type (R27). `State` is therefore the settled values on the core's ports, inputs (R22) and outputs (R23), as
a system around the core sees them (log entry 1), and the model's own counter of free values (log entry 15). -/

namespace Sys2Proof.Machine

/-- The tuple of outputs of one evaluation (R27). -/
structure Outputs where
  /-- Port `tc_c`, two's complement (R23, R65). -/
  tcC : BitVec Config.outW
  /-- Port `ref_c`, two's complement (R23, R68). -/
  refC : BitVec Config.outW
  /-- Port `faults[2:0]`: bit 0 is OC, bit 1 is SCG, bit 2 is SCV (R23, R72). -/
  faults : BitVec 3
  /-- Port `has_fault` (R23, R74). -/
  hasFault : Bool
deriving DecidableEq, Repr

/-- The values on the ports. `none` on the input says that no frame has been presented (R91); `none` on an
output says that it carries no defined value: with no frame, none at all (R91); with a frame on which the logic
has not yet settled, any value (R99, I9 of spec/93). Neither stands for a value the model chose. -/
structure State where
  /-- What b0 … b3 carry: a whole frame, or nothing (R22, R29, R91). -/
  input : Option InputPorts
  /-- What `tc_c` carries (R23, R91). -/
  tcC : Option (BitVec Config.outW)
  /-- What `ref_c` carries (R23, R91). -/
  refC : Option (BitVec Config.outW)
  /-- What `faults[2:0]` carries (R23, R91). -/
  faults : Option (BitVec 3)
  /-- What `has_fault` carries (R23, R91). -/
  hasFault : Option Bool
  /-- The model's own, no state of the core: how many free values were read so far (log entry 15). -/
  draws : Nat
deriving DecidableEq, Repr

/-- Why the system model stops. No frame and no operation of the core raises any of these (R47, R77). -/
inductive Fault where
  /-- An evaluation or the reading of an output before any frame was supplied: R91 makes it a fault of the
  system model. Raised by `fetchFrame` and `readOutput`. Safe: the model gives no value (log entry 2). -/
  | noFramePresented
deriving DecidableEq, Repr

/-- What the model refuses by name. -/
inductive Refusal where
  /-- An instruction without a meaning yet. No arm of `exec` raises it. Safe. -/
  | notModelled (mnemonic : String)
  /-- A buffer that is not four bytes long, refused at the boundary before the core (R78). Raised by
  `presentBytes`. Safe: no such input reaches the core (log entry 8). -/
  | wrongLength (length : Nat)
  /-- Build parameters outside the primitives' domains: a shift of the width or more (R61), or a result
  narrower than the field (R57). Raised by the temperature operations, and never under the legal
  parameters of R8. Safe (log entry 7). -/
  | parameterOutOfRange
deriving DecidableEq, Repr

/-- The model's start: no frame has been presented, and then no output carries a value (R91). The core itself has
no reset and nothing to reset (R90). DESIGN CHOICE (log entry 14): R91 does not say what a reset of the system
around the core does to the input ports; this state takes it that the host presents no frame then. Where the
host goes on presenting one, a system reset leaves the core's ports as they are. The counter of free values starts at 0
(log entry 15). -/
def State.reset : State := ⟨none, none, none, none, none, 0⟩

end Sys2Proof.Machine
end

