-- ==== Sys2Proof/Machine/Flags.lean ====
section
/-! DEFINITION. The fault flags: how the three individual flags lie in the port `faults[2:0]` (R23, R72),
each read back from it, and the set of faults it stands for. No flag is stored by the core (R19). -/

namespace Sys2Proof.Machine

/-- The port `faults[2:0]`: faults[0] = OC, faults[1] = SCG, faults[2] = SCV (R23, R72). -/
def packFaults (oc scg scv : Bool) : BitVec 3 := BitVec.ofBool scv ++ BitVec.ofBool scg ++ BitVec.ofBool oc

/-- `fault_oc`, open circuit (R23). -/
def faultOc (v : BitVec 3) : Bool := v.getLsbD 0

/-- `fault_scg`, short to GND (R23). -/
def faultScg (v : BitVec 3) : Bool := v.getLsbD 1

/-- `fault_scv`, short to VCC (R23). -/
def faultScv (v : BitVec 3) : Bool := v.getLsbD 2

/-- The three named fault conditions (R72, R73). -/
inductive SensorFault where
  /-- The thermocouple leads are not connected. -/
  | openCircuit
  /-- A short to GND. -/
  | shortToGND
  /-- A short to VCC. -/
  | shortToVCC
deriving DecidableEq, Repr

/-- Whether a named fault is present in the port's value: a 1 means present, a 0 absent (R72). -/
def faultPresent (v : BitVec 3) : SensorFault → Bool
  | .openCircuit => faultOc v
  | .shortToGND => faultScg v
  | .shortToVCC => faultScv v

/-- The set of R72 that a value of `faults[2:0]` stands for, as a list without repeats. -/
def faultSet (v : BitVec 3) : List SensorFault :=
  [SensorFault.openCircuit, SensorFault.shortToGND, SensorFault.shortToVCC].filter (faultPresent v)

/-- The check a consumer may make on the two fault ports (R75): the aggregate is the OR of the three. The core
does not make it and no port reports it. -/
def flagsAgree (o : Outputs) : Bool := o.hasFault == (faultOc o.faults || faultScg o.faults || faultScv o.faults)

end Sys2Proof.Machine
end

