-- ==== Sys2Proof/WellFormed.lean ====
section
/-! DEFINITION. The checks on data the types do not settle: the legal build options (R8), the argument
ranges of R54, and the length of a byte buffer at the boundary (R26, R78). The operations themselves
need no check: their operands have exactly the fields' widths and every value is legal (R47). -/

namespace Sys2Proof

/-- The legal values of the two build options: OUT_W ≥ 14 and REF_SHIFT in {0, 4} (R8). -/
abbrev Params.legal (c : Params) : Prop := 14 ≤ c.outW ∧ (c.refShift = 0 ∨ c.refShift = 4)

/-- The argument ranges of R54: q in [−8192, 8191] (R45), r in [−2048, 2047] (R46). -/
abbrev FrameFields.wellFormed (a : FrameFields) : Prop :=
  -8192 ≤ a.q ∧ a.q ≤ 8191 ∧ -2048 ≤ a.r ∧ a.r ≤ 2047

/-- A buffer is exactly FRAME_BYTES long (R26); any other length is refused at the boundary (R78). -/
abbrev bufferWellFormed (bs : List Byte) : Prop := bs.length = Config.frameBytes

end Sys2Proof
end

