-- ==== Sys2Proof/Decode.lean ====
section
/-! DEFINITION. From bytes to operations and back: frame assembly (R55), the unsigned bit-field extractor
(R56), the fields of FRAME32 (R42), the fault-flag demultiplexer (R62), the operation each output port
carries (R51, R52), the boundary's refusal of a wrong length (R78), and the encoders (R54). -/

namespace Sys2Proof

/-- ASSEMBLE (R55): byte0 is the most significant byte (R30), on any host (R31). -/
def assemble (p : InputPorts) : Frame := p.b0 ++ p.b1 ++ p.b2 ++ p.b3

/-- EXTRACT_U (R56): the slice `frame[hi:lo]` of R10, for 31 ≥ hi ≥ lo, which is all the core uses. DESIGN
CHOICE (log entry 13): R56 says nothing outside that domain, where this function, being total, gives the bits from
lo up with zeros above bit 31, and a single bit for hi < lo. -/
def extractU (f : Frame) (hi lo : Nat) : BitVec (hi - lo + 1) := f.extractLsb hi lo

/-- The four bytes of a frame in buffer order: the inverse of `assemble` (R22, R30). -/
def portsOfFrame (f : Frame) : InputPorts :=
  ⟨extractU f 31 24, extractU f 23 16, extractU f 15 8, extractU f 7 0⟩

/-- The TC field, `frame[31:18]` (R42). -/
def tcField (f : Frame) : BitVec 14 := extractU f Config.tcHi Config.tcLo

/-- The REF field, `frame[15:4]` (R42). -/
def refField (f : Frame) : BitVec 12 := extractU f Config.refHi Config.refLo

/-- A single bit of the frame, taken as is (R51). -/
def frameBit (f : Frame) (i : Nat) : Bool := f.getLsbD i

/-- The four outputs of the fault-flag demultiplexer (R62). -/
structure Demux where
  /-- Open circuit. -/
  oc : Bool
  /-- Short to GND. -/
  scg : Bool
  /-- Short to VCC. -/
  scv : Bool
  /-- The aggregate fault bit. -/
  agg : Bool
deriving DecidableEq, Repr

/-- DEMUX (R62): each output is the single frame bit named; nothing is combined, masked or prioritised. -/
def demux (f : Frame) : Demux :=
  ⟨frameBit f 0, frameBit f 1, frameBit f 2, frameBit f 16⟩

/-- The operation an output port carries, with the operand it draws from the frame (R51, R52). It is the
notation `TC_CELSIUS f`, `REF_CELSIUS f`, `FAULT_FLAGS f`, `HAS_FAULT f` of R53. -/
def decodeAt (port : Port) (f : Frame) : Instr :=
  match port with
  | .tcC => .tcCelsius (tcField f)
  | .refC => .refCelsius (refField f)
  | .faults => .faultFlags (demux f).oc (demux f).scg (demux f).scv
  | .hasFault => .hasFault (demux f).agg

/-- Every frame is decoded by all four operations at once (R52). The list is in the order of the opcode
table; no order is the spec's (R18), and none matters (log entry 11). -/
def decodeFrame (f : Frame) : List Instr :=
  [decodeAt .tcC f, decodeAt .refC f, decodeAt .faults f, decodeAt .hasFault f]

/-- Why a byte buffer is no frame. -/
inductive DecodeReject where
  /-- The buffer is not exactly four bytes long (R26, R78; I3 of spec/93). -/
  | wrongLength (length : Nat)
deriving DecidableEq, Repr

/-- The input ports that a buffer fills: exactly four bytes, else rejected by name (R78). -/
def portsOfBytes : List Byte → Except DecodeReject InputPorts
  | [b0, b1, b2, b3] => .ok ⟨b0, b1, b2, b3⟩
  | bs => .error (.wrongLength bs.length)

/-- The decoder on any bytes: all four operations of a four-byte frame, and a named rejection of every
other length (R47, R50, R78). -/
def decode (bs : List Byte) : Except DecodeReject (List Instr) :=
  match portsOfBytes bs with
  | .ok p => .ok (decodeFrame (assemble p))
  | .error e => .error e

/-- One frame bit as a 1-bit vector, for concatenation (R11). -/
def bit (b : Bool) : BitVec 1 := BitVec.ofBool b

/-- A frame that holds an operation's operand in that operation's field, and `base` in every other bit
(the field positions of R42). -/
def encodeInto (base : Frame) : Instr → Frame
  | .tcCelsius tc => tc ++ extractU base 17 0
  | .refCelsius ref => extractU base 31 16 ++ ref ++ extractU base 3 0
  | .faultFlags oc scg scv => extractU base 31 3 ++ bit scv ++ bit scg ++ bit oc
  | .hasFault fault => extractU base 31 17 ++ bit fault ++ extractU base 15 0

/-- An operation's operand in an otherwise zero frame, as the tables V4, V5 and V6 of spec/95 write it. -/
def encode (i : Instr) : Frame := encodeInto 0 i

/-- The frame bits an operation reads (the `fields` of its row in the opcode table). -/
def operandMask : Port → Frame
  | .tcC => 0xFFFC0000#32
  | .refC => 0x0000FFF0#32
  | .faults => 0x00000007#32
  | .hasFault => 0x00010000#32

/-- `encode` of R54: a frame built from its eight field values. -/
def FrameFields.encode (a : FrameFields) : Frame :=
  BitVec.ofInt 14 a.q ++ bit a.rsv17 ++ bit a.fault ++ BitVec.ofInt 12 a.r ++ bit a.rsv3 ++ bit a.scv ++ bit a.scg
    ++ bit a.oc

/-- The eight field values of a frame (R42): the signed fields by their two's-complement values (R13). -/
def fieldsOf (f : Frame) : FrameFields where
  q := (tcField f).toInt
  r := (refField f).toInt
  rsv17 := frameBit f 17
  fault := (demux f).agg
  rsv3 := frameBit f 3
  scv := (demux f).scv
  scg := (demux f).scg
  oc := (demux f).oc

/-- The frame of a table word: bit i of the word is frame bit i; more than FRAME_W bits is no frame (R41). DESIGN
CHOICE (log entry 4): a word of fewer than 32 bits is completed to a frame by zeros above `nbits`. The spec knows
no shorter frame (R26, R41); a table word is the host's numbering of a whole frame, not a byte buffer, so the
refusal of R78 (`portsOfBytes`) does not meet it. -/
def frameOfTableWord (nbits w : Nat) : Option Frame :=
  if nbits ≤ Config.frameW then some (BitVec.ofNat 32 (w % 2 ^ nbits)) else none

/-- The bytes of a frame in buffer order, byte0 first (R30). -/
def bytesOfFrame (f : Frame) : List Byte :=
  [(portsOfFrame f).b0, (portsOfFrame f).b1, (portsOfFrame f).b2, (portsOfFrame f).b3]

/-- The instruction the decoder reads from a table word. Every frame matches all four rows (R52), so the
decoder answers four operations; this function can name one, and it names the first, TC_CELSIUS
(log entry 4). -/
def decodeTableWord (nbits w : Nat) : Option Instr :=
  match frameOfTableWord nbits w with
  | none => none
  | some f =>
    match decode (bytesOfFrame f) with
    | .ok (i :: _) => some i
    | .ok [] => none
    | .error _ => none

end Sys2Proof
end

