-- ==== Sys2Proof/Machine/Ops.lean ====
section
/-! DEFINITION. The named operations over the ports: presenting a frame (R94), driving an output port
(R14), reading an output port (R91), and observing all four (R97). There is no memory operation and no
exception entry or return: the core has neither memory (R28) nor exceptions (R77, R82, R83). -/

namespace Sys2Proof.Machine

/-- Go on with `g` from a next outcome; a fault or a refusal stands. -/
def andThen {α β : Type} (o : Host.Outcome α Fault Refusal) (g : α → Host.Outcome β Fault Refusal) :
    Host.Outcome β Fault Refusal :=
  match o with
  | .next a => g a
  | .fault r => .fault r
  | .refused r => .refused r

/-- The host puts four bytes on the input ports (R94). Any value may be presented (R47). Where an input bit
changes, the outputs carry no defined value until the evaluation settles (R99; log entry 3). Where the very frame
is presented that stands on the ports already, no bit changes, and every output goes on as it was (R91). -/
def State.present (p : InputPorts) (s : State) : State :=
  if s.input = some p then s else ⟨some p, none, none, none, none, s.draws⟩

/-- One free value was read: the next one is another (log entry 15). -/
def State.draw (s : State) : State := { s with draws := s.draws + 1 }

/-- The host presents a byte buffer: four bytes reach the ports, any other length is refused before the
core (R78). -/
def presentBytes (bs : List Byte) (s : State) : Host.Outcome State Fault Refusal :=
  match portsOfBytes bs with
  | .ok p => .next (s.present p)
  | .error (.wrongLength n) => .refused (.wrongLength n)

/-- `out.tc_c <- v` (R14, R65). -/
def State.driveTcC (v : BitVec Config.outW) (s : State) : State := { s with tcC := some v }

/-- `out.ref_c <- v` (R14, R68). -/
def State.driveRefC (v : BitVec Config.outW) (s : State) : State := { s with refC := some v }

/-- `out.faults <- v` (R14, R72). -/
def State.driveFaults (v : BitVec 3) (s : State) : State := { s with faults := some v }

/-- `out.has_fault <- v` (R14, R74). -/
def State.driveHasFault (v : Bool) (s : State) : State := { s with hasFault := some v }

/-- The frame on the input ports, assembled by R55; before any frame was presented there is none (R91). -/
def fetchFrame (s : State) : Host.Outcome Frame Fault Refusal :=
  match s.input with
  | some p => .next (assemble p)
  | none => .fault .noFramePresented

/-- Read what an output port shows: the value it carries; before it has settled on the frame presented, a free
value (R99, I9 of spec/93; log entry 3); and without a frame a fault (R91). -/
def readOutput {α : Type} (free : Nat → α) (v : Option α) (s : State) : Host.Outcome (α × State) Fault Refusal :=
  match s.input with
  | none => .fault .noFramePresented
  | some _ =>
    match v with
    | some a => .next (a, s)
    | none => .next (free s.draws, s.draw)

/-- Read port `tc_c`. -/
def readTcC (s : State) : Host.Outcome (BitVec Config.outW × State) Fault Refusal :=
  readOutput Config.unsettledTcC s.tcC s

/-- Read port `ref_c`. -/
def readRefC (s : State) : Host.Outcome (BitVec Config.outW × State) Fault Refusal :=
  readOutput Config.unsettledRefC s.refC s

/-- Read port `faults[2:0]`. -/
def readFaults (s : State) : Host.Outcome (BitVec 3 × State) Fault Refusal :=
  readOutput Config.unsettledFaults s.faults s

/-- Read port `has_fault`. -/
def readHasFault (s : State) : Host.Outcome (Bool × State) Fault Refusal :=
  readOutput Config.unsettledHasFault s.hasFault s

/-- The output tuple, all four ports side by side (R27, R75, R97), and the state after reading them. -/
def observe (s : State) : Host.Outcome (Outputs × State) Fault Refusal :=
  andThen (readTcC s) fun t =>
  andThen (readRefC t.2) fun r =>
  andThen (readFaults r.2) fun f =>
  andThen (readHasFault f.2) fun h => .next (⟨t.1, r.1, f.1, h.1⟩, h.2)

end Sys2Proof.Machine
end

