-- ==== Sys2Proof/Machine/FaultFlags.lean ====
section
/-! DEFINITION. The fault-flag operations (spec/42): FAULT_FLAGS and HAS_FAULT. -/

namespace Sys2Proof.Machine

/-- FAULT_FLAGS (R72): each flag to its own bit of `faults[2:0]`, with no priority and no masking (R73). -/
def execFaultFlags (oc scg scv : Bool) (s : State) : Host.Outcome State Fault Refusal :=
  .next (s.driveFaults (packFaults oc scg scv))

/-- HAS_FAULT (R74): the aggregate bit, read directly and not computed from the three flags. -/
def execHasFault (fault : Bool) (s : State) : Host.Outcome State Fault Refusal :=
  .next (s.driveHasFault fault)

end Sys2Proof.Machine
end

