-- ==== Sys2Proof/Machine/Operands.lean ====
section
/-! DEFINITION. The datapath primitives on operands: sign extension (R12), the bit-field extract with
sign-extension (R57), the fixed-width arithmetic right shift (R59), and their composition (R65, R68). Each is
written at every width; outside its domain it gives none (R57, R61; log entry 7). The unsigned extract, which is
total, stands in Decode (log entry 13). -/

namespace Sys2Proof.Machine

/-- `sext_W` (R12): widen a k-bit value to W bits with copies of its top bit; W < k is no instance (R57). -/
def sext (w : Nat) {k : Nat} (v : BitVec k) : Option (BitVec w) :=
  if k ≤ w then some (v.signExtend w) else none

/-- EXTRACT_S_W (R57): extract `frame[hi:lo]`, then sign-extend to W bits. DESIGN CHOICE (log entry 7): bounds
outside R56's domain (hi < lo or hi > 31) give none, as W < k does. -/
def extractS (w : Nat) (f : Frame) (hi lo : Nat) : Option (BitVec w) :=
  if lo ≤ hi ∧ hi < Config.frameW then sext w (extractU f hi lo) else none

/-- ASR_W (R59): `sext_W(v[W−1:s])`; a shift of W or more is refused (R61). -/
def asr {w : Nat} (v : BitVec w) (s : Nat) : Option (BitVec w) :=
  if s < w then some ((v.extractLsb (w - 1) s).signExtend w) else none

/-- The datapath of both temperature operations: sign-extend the field to W bits, then shift right
arithmetically by s (R51, R65, R68). -/
def temperature (w s : Nat) {k : Nat} (field : BitVec k) : Option (BitVec w) := (sext w field).bind (asr · s)

end Sys2Proof.Machine
end

