-- ==== Sys2Proof/Machine/Temperature.lean ====
section
/-! DEFINITION. The temperature operations (spec/41): TC_CELSIUS and REF_CELSIUS. -/

namespace Sys2Proof.Machine

/-- TC_CELSIUS (R65): `tc_q = sext_OUT_W(frame[31:18])`, `out.tc_c <- asr_OUT_W(tc_q, 2)`. It writes no flag
and raises no exception. -/
def execTcCelsius (tc : BitVec 14) (s : State) : Host.Outcome State Fault Refusal :=
  match temperature Config.outW Config.tcShift tc with
  | some v => .next (s.driveTcC v)
  | none => .refused .parameterOutOfRange

/-- REF_CELSIUS (R68): `ref_raw = sext_OUT_W(frame[15:4])`, `out.ref_c <- asr_OUT_W(ref_raw, REF_SHIFT)`. It
writes no flag and raises no exception. -/
def execRefCelsius (ref : BitVec 12) (s : State) : Host.Outcome State Fault Refusal :=
  match temperature Config.outW Config.refShift ref with
  | some v => .next (s.driveRefC v)
  | none => .refused .parameterOutOfRange

end Sys2Proof.Machine
end

