-- ==== Sys2Proof/Machine/Dispatch.lean ====
section
/-! DEFINITION. One arm per operation of the opcode table (R52). -/

namespace Sys2Proof.Machine

def exec (i : Instr) (s : State) : Host.Outcome State Fault Refusal :=
  match i with
  | .tcCelsius tc => Sys2Proof.Machine.execTcCelsius tc s
  | .refCelsius ref => Sys2Proof.Machine.execRefCelsius ref s
  | .faultFlags oc scg scv => Sys2Proof.Machine.execFaultFlags oc scg scv s
  | .hasFault fault => Sys2Proof.Machine.execHasFault fault s

end Sys2Proof.Machine
end

