-- ==== Sys2Proof/Machine/Evaluate.lean ====
section
/-! DEFINITION. One evaluation of the core: every operation of the frame, on the one frame presented (R24,
R52). -/

namespace Sys2Proof.Machine

/-- Run operations one after another. The core computes all of them at the same time (R24); the order
is immaterial because each drives a port of its own (R71; log entry 11). -/
def execAll : List Instr → State → Host.Outcome State Fault Refusal
  | [], s => .next s
  | i :: is, s => andThen (exec i s) (execAll is)

/-- One evaluation of the frame on the input ports by all four operations (R24, R27, R52). -/
def evaluate (s : State) : Host.Outcome State Fault Refusal :=
  andThen (fetchFrame s) fun f => execAll (decodeFrame f) s

/-- Present the frame of a table word on the input ports, a shorter word completed by zeros (log entry 4); a
word longer than a frame presents nothing (R41; log entry 5). -/
def presentTableWord (s : State) (nbits w : Nat) : State :=
  match frameOfTableWord nbits w with
  | some f => s.present (portsOfFrame f)
  | none => s

end Sys2Proof.Machine
end

