-- ==== Sys2Proof/Machine/Step.lean ====
section
/-! DEFINITION. One step is one evaluation (R27). -/

namespace Sys2Proof.Machine

/-- One step: the core evaluates the frame on its input ports (R27). -/
def step (s : State) : Host.Outcome State Fault Refusal := Sys2Proof.Machine.evaluate s

/-- The state with a table word's frame on the input ports, which is where `step` reads its frame (log entry 5). -/
def State.withFetchWord (s : State) (nbits w : Nat) : State := Sys2Proof.Machine.presentTableWord s nbits w

end Sys2Proof.Machine
end

