-- ==== Sys2Proof/Machine/Program.lean ====
section
/-! DEFINITION. Programs (R53, R97): a finite list of DECODE lines, each presented and evaluated, observed as
the list of output tuples. -/

namespace Sys2Proof.Machine

/-- `DECODE b0, b1, b2, b3` (R53): present one frame and evaluate all four operations. -/
def decodeLine (p : InputPorts) (s : State) : Host.Outcome State Fault Refusal := step (s.present p)

/-- Run a program (R97): its observation, one tuple per line in order, and the end state. -/
def runProgram : Program → State → Host.Outcome (List Outputs × State) Fault Refusal
  | [], s => .next ([], s)
  | p :: ps, s =>
    andThen (decodeLine p s) fun t =>
    andThen (observe t) fun o =>
    andThen (runProgram ps o.2) fun rest => .next (o.1 :: rest.1, rest.2)

end Sys2Proof.Machine
end

