-- ==== Sys2Proof/Safety.lean ====
section
/-! DEFINITION. The terms the claims use: the spec's arithmetic on a frame, written over the frame's number
and its bits alone and not through the model's datapath; what it is for the ports to carry the outputs of a
frame; and the invariant of the ports. -/

namespace Sys2Proof

/-- The integer value of a signed field of the frame: `uint(frame[hi:lo]) − 2^k × frame[hi]` (R58). -/
def fieldValue (f : Frame) (hi lo : Nat) : Int :=
  ((f.toNat / 2 ^ lo % 2 ^ (hi - lo + 1) : Nat) : Int) - 2 ^ (hi - lo + 1) * (if f.getLsbD hi then 1 else 0)

/-- The thermocouple temperature of a frame in whole degrees: floor of the quarter degrees over 4 (R65). -/
def tcCelsiusOf (f : Frame) : Int := (fieldValue f 31 18).fdiv 4

/-- The reference temperature of a frame: the field's own value (R68 with REF_SHIFT = 0). -/
def refCelsiusOf (f : Frame) : Int := fieldValue f 15 4

/-- `well_formed(frame)` of R75: the aggregate bit is the OR of the three fault bits. -/
def frameConsistent (f : Frame) : Prop := f.getLsbD 16 = (f.getLsbD 0 || f.getLsbD 1 || f.getLsbD 2)

namespace Machine

/-- An output tuple is the one the rules give for the frame (R65, R68, R72, R74). -/
def Outputs.areOf (o : Outputs) (f : Frame) : Prop :=
  o.tcC.toInt = tcCelsiusOf f ∧ o.refC.toInt = refCelsiusOf f ∧
    (∀ i, i < 3 → o.faults.getLsbD i = f.getLsbD i) ∧ o.hasFault = f.getLsbD 16

/-- All four output ports carry the outputs of the frame on the input ports: the settled state (R91, R99). -/
def State.settled (s : State) : Prop :=
  ∃ (p : InputPorts) (o : Outputs), o.areOf (assemble p) ∧
    s = ⟨some p, some o.tcC, some o.refC, some o.faults, some o.hasFault, s.draws⟩

/-- A frame arrives on the input ports while the output ports still carry whatever they carried. It is no
operation of the model, where `present` takes the values off when the frame changes (log entry 3): claims use it to say that what
stood on the output ports before never matters (R76, R96). -/
def State.replaceInput (p : InputPorts) (s : State) : State := { s with input := some p }

/-- A program run line by line without ever taking the earlier lines' values off the output ports. -/
def runOverStaleOutputs : Program → State → Host.Outcome (List Outputs × State) Fault Refusal
  | [], s => .next ([], s)
  | p :: ps, s =>
    andThen (step (s.replaceInput p)) fun t =>
    andThen (observe t) fun o =>
    andThen (runOverStaleOutputs ps o.2) fun rest => .next (o.1 :: rest.1, rest.2)

/-- The invariant of the ports (R91): with no frame no output carries a value, and an output that carries
a value carries the one the rules give for the frame on the input ports. -/
structure State.Inv (s : State) : Prop where
  /-- Before any frame, no output has a value. -/
  noFrame : s.input = none → s = { State.reset with draws := s.draws }
  /-- `tc_c` follows the frame presented. -/
  tc : ∀ p v, s.input = some p → s.tcC = some v → v.toInt = tcCelsiusOf (assemble p)
  /-- `ref_c` follows the frame presented. -/
  ref : ∀ p v, s.input = some p → s.refC = some v → v.toInt = refCelsiusOf (assemble p)
  /-- `faults` follows the frame presented. -/
  faults : ∀ p v i, s.input = some p → s.faults = some v → i < 3 → v.getLsbD i = (assemble p).getLsbD i
  /-- `has_fault` follows the frame presented. -/
  hasFault : ∀ p v, s.input = some p → s.hasFault = some v → v = (assemble p).getLsbD 16

end Machine

end Sys2Proof
end

