-- ==== Sys2Proof/Certificates/Slice0/Obligations.lean ====
section
/-! DEFINITION. The statements for the provers. Each docstring names the rule of spec/ it formalises. -/

open Sys2Proof Sys2Proof.Machine

/-! ### The frame and its bytes (spec/20, spec/30, R55) -/

/-- R30: each byte of the frame is the byte of its port, byte0 in bits 31:24 and byte3 in bits 7:0. -/
def Obligations.FrameIsBigEndian : Prop :=
  ∀ p : InputPorts, extractU (assemble p) 31 24 = p.b0 ∧ extractU (assemble p) 23 16 = p.b1 ∧
    extractU (assemble p) 15 8 = p.b2 ∧ extractU (assemble p) 7 0 = p.b3

/-- R55: the frame is the concatenation of the bytes, and as a number their sum by weights; with the rule's
example. -/
def Obligations.AssembleWeighsBytes : Prop :=
  (∀ p : InputPorts, assemble p = p.b0 ++ p.b1 ++ p.b2 ++ p.b3 ∧
    (assemble p).toNat = 2 ^ 24 * p.b0.toNat + 2 ^ 16 * p.b1.toNat + 2 ^ 8 * p.b2.toNat + p.b3.toNat) ∧
  assemble ⟨0x01, 0x90, 0x19, 0x00⟩ = 0x01901900#32

/-- R31: the frame is the shift-and-OR composition of the zero-extended bytes. -/
def Obligations.AssembleIsShiftAndOr : Prop :=
  ∀ p : InputPorts, assemble p = (p.b0.setWidth 32 <<< 24) ||| (p.b1.setWidth 32 <<< 16) |||
    (p.b2.setWidth 32 <<< 8) ||| p.b3.setWidth 32

/-- R22 and D2: the four byte ports and the one 32-bit frame are the same interface. -/
def Obligations.PortsAndFrameOneToOne : Prop :=
  (∀ f : Frame, assemble (portsOfFrame f) = f) ∧ (∀ p : InputPorts, portsOfFrame (assemble p) = p)

/-- R33: each field lies in the bytes its row lists, the more significant byte giving the more significant
bits of a field that spans two. -/
def Obligations.FieldsLieInTheirBytes : Prop :=
  ∀ p : InputPorts, tcField (assemble p) = p.b0 ++ p.b1.extractLsb 7 2 ∧
    frameBit (assemble p) 17 = p.b1.getLsbD 1 ∧ (demux (assemble p)).agg = p.b1.getLsbD 0 ∧
    refField (assemble p) = p.b2 ++ p.b3.extractLsb 7 4 ∧ frameBit (assemble p) 3 = p.b3.getLsbD 3 ∧
    (demux (assemble p)).scv = p.b3.getLsbD 2 ∧ (demux (assemble p)).scg = p.b3.getLsbD 1 ∧
    (demux (assemble p)).oc = p.b3.getLsbD 0

/-- R78: a buffer that is not four bytes long is refused at the boundary, by its length; a buffer of four
bytes is presented. -/
def Obligations.WrongLengthRefusedAtBoundary : Prop :=
  ∀ (bs : List Byte) (s : State),
    (¬ bufferWellFormed bs → presentBytes bs s = .refused (.wrongLength bs.length) ∧
      decode bs = .error (.wrongLength bs.length)) ∧
    (bufferWellFormed bs → ∃ p : InputPorts, bs = [p.b0, p.b1, p.b2, p.b3] ∧ presentBytes bs s = .next (s.present p) ∧
      decode bs = .ok (decodeFrame (assemble p)))

/-! ### Encoding and decoding (spec/30) -/

/-- R54: decoding a frame built from field values in their ranges gives the values back. -/
def Obligations.DecodeOfBuiltFrame : Prop :=
  ∀ a : FrameFields, a.wellFormed → fieldsOf a.encode = a

/-- R42: the eight fields cover all 32 bits. Every frame is the one built from its own field values, and those
are in range. -/
def Obligations.FieldsRebuildTheFrame : Prop :=
  ∀ f : Frame, (fieldsOf f).wellFormed ∧ (fieldsOf f).encode = f

/-- R51, R52: an operation encoded into any frame is decoded from it with its operand unchanged, and it is
among the operations the decoder reads from that frame's bytes. -/
def Obligations.DecodeOfEncodedOperation : Prop :=
  ∀ (base : Frame) (i : Instr), decodeAt i.port (encodeInto base i) = i ∧
    ∃ is, decode (bytesOfFrame (encodeInto base i)) = .ok is ∧ i ∈ is

/-- R42: no two fields overlap. Encoding one operation changes no other operation's operand and no reserved
bit. -/
def Obligations.EncodingLeavesOtherFields : Prop :=
  ∀ (base : Frame) (i : Instr),
    (∀ port, port ≠ i.port → decodeAt port (encodeInto base i) = decodeAt port base) ∧
    frameBit (encodeInto base i) 17 = frameBit base 17 ∧ frameBit (encodeInto base i) 3 = frameBit base 3

/-- Frames of spec/95 (V8, V7, E1) written out byte by byte decode to the operations they stand for. -/
def Obligations.SpecFramesDecode : Prop :=
  decode [0x01, 0x90, 0x19, 0x00] =
    .ok [.tcCelsius 0x0064, .refCelsius 0x190, .faultFlags false false false, .hasFault false] ∧
  decode [0xFF, 0xF0, 0x00, 0x00] =
    .ok [.tcCelsius 0x3FFC, .refCelsius 0x000, .faultFlags false false false, .hasFault false] ∧
  decode [0x06, 0x40, 0x19, 0xF6] =
    .ok [.tcCelsius 0x0190, .refCelsius 0x19F, .faultFlags false true true, .hasFault false] ∧
  decode [0x00, 0x01, 0x00, 0x01] =
    .ok [.tcCelsius 0x0000, .refCelsius 0x000, .faultFlags true false false, .hasFault true] ∧
  decode [0x01, 0x92, 0x19, 0x08] = decode [0x01, 0x90, 0x19, 0x00]

/-! ### The datapath primitives (spec/40) -/

/-- R56: the unsigned extract is the slice of the frame; hi = lo gives one bit; with the rule's example. -/
def Obligations.ExtractUnsignedIsSlice : Prop :=
  (∀ (f : Frame) (hi lo : Nat), lo ≤ hi → hi ≤ 31 →
    (∀ i, i ≤ hi - lo → (extractU f hi lo).getLsbD i = f.getLsbD (lo + i)) ∧
    (extractU f hi lo).toNat = f.toNat / 2 ^ lo % 2 ^ (hi - lo + 1)) ∧
  (∀ (f : Frame) (i : Nat), i ≤ 31 → (extractU f i i).toNat = (f.getLsbD i).toNat) ∧
  extractU 0x01901900#32 31 18 = 0x0064#14

/-- R57: the signed extract keeps the field in its low bits and copies the field's own top bit above it;
all ones give −1, the top bit alone gives the most negative value, and W = k leaves the field unchanged; with the
rule's example. -/
def Obligations.ExtractSignedCopiesTopBit : Prop :=
  (∀ (w : Nat) (f : Frame) (hi lo : Nat), lo ≤ hi → hi ≤ 31 → hi - lo + 1 ≤ w →
    ∃ v : BitVec w, extractS w f hi lo = some v ∧
      (∀ i, i < hi - lo + 1 → v.getLsbD i = f.getLsbD (lo + i)) ∧
      (∀ i, hi - lo + 1 ≤ i → i < w → v.getLsbD i = f.getLsbD hi) ∧
      ((extractU f hi lo).toNat = 2 ^ (hi - lo + 1) - 1 → v.toInt = -1) ∧
      ((extractU f hi lo).toNat = 2 ^ (hi - lo) → v.toInt = -2 ^ (hi - lo)) ∧
      (w = hi - lo + 1 → v.toNat = (extractU f hi lo).toNat)) ∧
  extractS 16 0xFFF00000#32 31 18 = some 0xFFFC#16

/-- THE MODEL'S CHOICE (log entry 7, after R56, R57): a result narrower than the field, and bounds outside
31 ≥ hi ≥ lo, are no instance of the signed extract and give no value, while every legal OUT_W gives one for both
fields. -/
def Obligations.NarrowExtractGivesNoValue : Prop :=
  (∀ (w : Nat) (f : Frame) (hi lo : Nat), w < hi - lo + 1 → extractS w f hi lo = none) ∧
  (∀ (w : Nat) (f : Frame) (hi lo : Nat), hi < lo ∨ 31 < hi → extractS w f hi lo = none) ∧
  (∀ (c : Params) (f : Frame), c.legal →
    (extractS c.outW f 31 18).isSome = true ∧ (extractS c.outW f 15 4).isSome = true)

/-- R58: the sign-extended field has its two's-complement value at every width W ≥ k, with the ranges of
the two fields. -/
def Obligations.SignedFieldValueAtEveryWidth : Prop :=
  (∀ (w : Nat) (f : Frame) (hi lo : Nat), lo ≤ hi → hi ≤ 31 → hi - lo + 1 ≤ w →
    ∃ v : BitVec w, extractS w f hi lo = some v ∧
      v.toInt = ((extractU f hi lo).toNat : Int) - 2 ^ (hi - lo + 1) * (if f.getLsbD hi then 1 else 0)) ∧
  (∀ (w : Nat) (f : Frame) (v : BitVec w), extractS w f 31 18 = some v → -8192 ≤ v.toInt ∧ v.toInt ≤ 8191) ∧
  (∀ (w : Nat) (f : Frame) (v : BitVec w), extractS w f 15 4 = some v → -2048 ≤ v.toInt ∧ v.toInt ≤ 2047)

/-- R59: the arithmetic right shift is floor division by 2^s: the vacated bits copy the sign, the rest move
down, and the result is no larger than the operand; −1 gives −1 and −5 gives −2 for s = 2. -/
def Obligations.AsrIsFloorDivision : Prop :=
  (∀ (w : Nat) (v : BitVec w) (s : Nat), s < w → ∃ r : BitVec w, asr v s = some r ∧
    (∀ i, i < w - s → r.getLsbD i = v.getLsbD (s + i)) ∧
    (∀ i, w - s ≤ i → i < w → r.getLsbD i = v.getLsbD (w - 1)) ∧
    r.toInt = v.toInt.fdiv (2 ^ s) ∧ r.toInt.natAbs ≤ v.toInt.natAbs) ∧
  asr (-1 : BitVec 16) 2 = some (-1) ∧ asr (-5 : BitVec 16) 2 = some (-2)

/-- R60: for a negative value and a shift that moves, the arithmetic shift is not the logical one: every
vacated bit is 1; with the rule's example. -/
def Obligations.AsrIsNotLogicalShift : Prop :=
  (∀ (w : Nat) (v : BitVec w) (s : Nat), 0 < s → s < w → v.toInt < 0 → ∃ r : BitVec w, asr v s = some r ∧
    (∀ i, w - s ≤ i → i < w → r.getLsbD i = true) ∧ r.toInt < 0 ∧ 0 ≤ (v >>> s).toInt ∧ r ≠ v >>> s) ∧
  asr 0xFFFC#16 2 = some 0xFFFF#16 ∧ 0xFFFC#16 >>> 2 = 0x3FFF#16

/-- R61: a shift of 0 is the identity, a shift of the width or more is refused, and the shifts this core is
built with lie below its width. -/
def Obligations.AsrDomain : Prop :=
  (∀ (w : Nat) (v : BitVec w), 0 < w → asr v 0 = some v) ∧
  (∀ (w : Nat) (v : BitVec w) (s : Nat), w ≤ s → asr v s = none) ∧
  Config.tcShift = 2 ∧ (Config.refShift = 0 ∨ Config.refShift = 4) ∧
  (∀ c : Params, c.legal → Config.tcShift < c.outW ∧ c.refShift < c.outW)

/-- R63 (its three exactness and range clauses): nothing overflows at the widths the core uses. -/
def Obligations.NothingOverflows : Prop :=
  (∀ tc : BitVec 14, ∃ v : BitVec 16, sext 16 tc = some v ∧ v.toInt = tc.toInt) ∧
  (∀ ref : BitVec 12, ∃ v : BitVec 16, sext 16 ref = some v ∧ v.toInt = ref.toInt) ∧
  (∀ v r : BitVec 16, -8192 ≤ v.toInt → v.toInt ≤ 8191 → asr v 2 = some r → -2048 ≤ r.toInt ∧ r.toInt ≤ 2047) ∧
  (∀ v r : BitVec 16, -2048 ≤ v.toInt → v.toInt ≤ 2047 → asr v 4 = some r → -128 ≤ r.toInt ∧ r.toInt ≤ 127)

/-- R64: sign-extending a field and shifting out its low bits is sign-extending its upper part, at every
width the rule names. -/
def Obligations.ShiftOfExtractIsShorterExtract : Prop :=
  (∀ (w : Nat) (f : Frame), 14 ≤ w → (extractS w f 31 20).isSome = true ∧
    (extractS w f 31 18).bind (asr · 2) = extractS w f 31 20) ∧
  (∀ (w : Nat) (f : Frame), 12 ≤ w → (extractS w f 15 8).isSome = true ∧
    (extractS w f 15 4).bind (asr · 4) = extractS w f 15 8)

/-- R62: the demultiplexer's outputs are the single frame bits named, and all 16 combinations occur and pass
through; with the rule's example. -/
def Obligations.DemuxRoutesSingleBits : Prop :=
  (∀ (s : State) (p : InputPorts), ∃ (t : State) (v : BitVec 3) (h : Bool),
    step (s.present p) = .next t ∧ t.faults = some v ∧ t.hasFault = some h ∧
    faultOc v = (assemble p).getLsbD 0 ∧ faultScg v = (assemble p).getLsbD 1 ∧
    faultScv v = (assemble p).getLsbD 2 ∧ h = (assemble p).getLsbD 16) ∧
  (∀ oc scg scv agg : Bool, ∃ f : Frame, demux f = ⟨oc, scg, scv, agg⟩) ∧
  demux 0x00010005#32 = ⟨true, false, true, true⟩

/-! ### The operations (spec/41, spec/42) -/

/-- R65: TC_CELSIUS on every operand and in every state drives tc_c, and nothing else, with the floor of
the quarter degrees over 4; on a frame, the field is frame[31:18] with sign bit frame[31]. -/
def Obligations.TcCelsiusDrivesFloorOfQuarters : Prop :=
  (∀ (tc : BitVec 14) (s : State), ∃ v : BitVec 16,
    exec (.tcCelsius tc) s = .next { s with tcC := some v } ∧ v.toInt = tc.toInt.fdiv 4) ∧
  (∀ (f : Frame) (s : State), ∃ v : BitVec 16,
    exec (decodeAt .tcC f) s = .next { s with tcC := some v } ∧ v.toInt = (fieldValue f 31 18).fdiv 4)

/-- R66: TC_CELSIUS keeps negative fields negative. The source's example: field 0x3FFC is −4 before the shift
and −1 after it, never the 4095 of a zero extension with a logical shift. -/
def Obligations.TcCelsiusKeepsNegativeFields : Prop :=
  (∀ (tc : BitVec 14) (s : State), tc.msb = true → ∃ v : BitVec 16,
    exec (.tcCelsius tc) s = .next { s with tcC := some v } ∧ v.toInt < 0) ∧
  (sext 16 0x3FFC#14 = some (-4)) ∧
  (∀ s : State, exec (.tcCelsius 0x3FFC#14) s = .next { s with tcC := some (-1) }) ∧
  (BitVec.setWidth 16 0x3FFC#14 >>> 2).toInt = 4095

/-- R67: tc_c ranges over −2048 … 2047; every C of that range is reached from the field values 4C to 4C + 3,
and only a field that is a multiple of 4 is given back exactly by 4 × tc_c. -/
def Obligations.TcCelsiusRangeAndRoundTrip : Prop :=
  (∀ (tc : BitVec 14) (s : State), ∃ v : BitVec 16, exec (.tcCelsius tc) s = .next { s with tcC := some v } ∧
    -2048 ≤ v.toInt ∧ v.toInt ≤ 2047 ∧ (4 * v.toInt = tc.toInt ↔ tc.toInt % 4 = 0)) ∧
  (∀ (c d : Int) (s : State), -2048 ≤ c → c ≤ 2047 → 0 ≤ d → d ≤ 3 →
    exec (.tcCelsius (BitVec.ofInt 14 (4 * c + d))) s = .next { s with tcC := some (BitVec.ofInt 16 c) })

/-- R68: REF_CELSIUS on every operand and in every state drives ref_c, and nothing else, with the field's
own signed value (REF_SHIFT = 0); on a frame, the field is frame[15:4] with sign bit frame[15]. -/
def Obligations.RefCelsiusDrivesFieldValue : Prop :=
  (∀ (ref : BitVec 12) (s : State), ∃ v : BitVec 16,
    exec (.refCelsius ref) s = .next { s with refC := some v } ∧ v.toInt = ref.toInt) ∧
  (∀ (f : Frame) (s : State), ∃ v : BitVec 16,
    exec (decodeAt .refC f) s = .next { s with refC := some v } ∧ v.toInt = fieldValue f 15 4)

/-- R70: ref_c ranges over −2048 … 2047, each value reached by exactly one field value; under the alternative
REF_SHIFT = 4 the result is the floor of the field over 16, the signed value of frame[15:8], in −128 … 127. -/
def Obligations.RefCelsiusRangeAndAlternative : Prop :=
  (∀ (ref : BitVec 12) (s : State), ∃ v : BitVec 16, exec (.refCelsius ref) s = .next { s with refC := some v } ∧
    -2048 ≤ v.toInt ∧ v.toInt ≤ 2047) ∧
  (∀ n : Int, -2048 ≤ n → n ≤ 2047 → ∃ ref : BitVec 12,
    (∀ s : State, exec (.refCelsius ref) s = .next { s with refC := some (BitVec.ofInt 16 n) }) ∧
    (∀ (ref' : BitVec 12) (s : State),
      exec (.refCelsius ref') s = .next { s with refC := some (BitVec.ofInt 16 n) } → ref' = ref)) ∧
  (∀ f : Frame, ∃ v : BitVec 16, temperature 16 4 (refField f) = some v ∧
    v.toInt = (refField f).toInt.fdiv 16 ∧ v.toInt = (extractU f 15 8).toInt ∧ -128 ≤ v.toInt ∧ v.toInt ≤ 127)

/-- R43, R44: tc_c is negative exactly when frame bit 31 (byte0 bit 7) is 1, ref_c exactly when frame bit 15
(byte2 bit 7) is 1. -/
def Obligations.SignBitsOfTemperatures : Prop :=
  ∀ (p : InputPorts) (s : State), ∃ (t : State) (v w : BitVec 16),
    step (s.present p) = .next t ∧ t.tcC = some v ∧ t.refC = some w ∧
    (v.toInt < 0 ↔ (assemble p).getLsbD 31 = true) ∧ (w.toInt < 0 ↔ (assemble p).getLsbD 15 = true) ∧
    (assemble p).getLsbD 31 = p.b0.getLsbD 7 ∧ (assemble p).getLsbD 15 = p.b2.getLsbD 7

/-- R8, R58: for every legal OUT_W and REF_SHIFT both temperatures exist, and their integer values do not
depend on OUT_W. -/
def Obligations.TemperaturesSameAtEveryWidth : Prop :=
  ∀ (c : Params) (f : Frame), c.legal → ∃ v r : BitVec c.outW,
    temperature c.outW Config.tcShift (tcField f) = some v ∧ v.toInt = (fieldValue f 31 18).fdiv 4 ∧
    temperature c.outW c.refShift (refField f) = some r ∧ r.toInt = (fieldValue f 15 4).fdiv (2 ^ c.refShift)

/-- R72: FAULT_FLAGS on every operand and in every state drives faults[2:0], and nothing else, each bit with
its own flag, which is its own frame bit; and the port's value stands for the set of the faults present. -/
def Obligations.FaultFlagsDrivesThreeBits : Prop :=
  (∀ (oc scg scv : Bool) (s : State), ∃ v : BitVec 3,
    exec (.faultFlags oc scg scv) s = .next { s with faults := some v } ∧
    v.getLsbD 0 = oc ∧ v.getLsbD 1 = scg ∧ v.getLsbD 2 = scv) ∧
  (∀ (f : Frame) (s : State), exec (decodeAt .faults f) s = .next { s with faults := some (extractU f 2 0) } ∧
    (SensorFault.openCircuit ∈ faultSet (extractU f 2 0) ↔ f.getLsbD 0 = true) ∧
    (SensorFault.shortToGND ∈ faultSet (extractU f 2 0) ↔ f.getLsbD 1 = true) ∧
    (SensorFault.shortToVCC ∈ faultSet (extractU f 2 0) ↔ f.getLsbD 2 = true))

/-- R73: each flag depends on its own frame bit only, and every combination may be active at once. -/
def Obligations.FaultFlagsAreIndependent : Prop :=
  (∀ (p q : InputPorts) (s s' : State) (i : Nat), i < 3 → (assemble p).getLsbD i = (assemble q).getLsbD i →
    ∃ (t t' : State) (v v' : BitVec 3), step (s.present p) = .next t ∧ step (s'.present q) = .next t' ∧
      t.faults = some v ∧ t'.faults = some v' ∧ v.getLsbD i = v'.getLsbD i) ∧
  (∀ (v : BitVec 3) (s : State), ∃ (p : InputPorts) (t : State),
    step (s.present p) = .next t ∧ t.faults = some v)

/-- R74: HAS_FAULT on every operand and in every state drives has_fault, and nothing else, with frame bit 16
read directly; a frame whose flags contradict that bit shows both as they are. -/
def Obligations.HasFaultDrivesBit16 : Prop :=
  (∀ (b : Bool) (s : State), exec (.hasFault b) s = .next { s with hasFault := some b }) ∧
  (∀ (f : Frame) (s : State), exec (decodeAt .hasFault f) s = .next { s with hasFault := some (f.getLsbD 16) }) ∧
  (∀ (p : InputPorts) (s : State), (assemble p).getLsbD 16 = true → extractU (assemble p) 2 0 = 0#3 →
    ∃ t : State, step (s.present p) = .next t ∧ t.hasFault = some true ∧ t.faults = some 0#3) ∧
  (∀ (p : InputPorts) (s : State), (assemble p).getLsbD 16 = false → extractU (assemble p) 2 0 ≠ 0#3 →
    ∃ (t : State) (v : BitVec 3), step (s.present p) = .next t ∧ t.hasFault = some false ∧ t.faults = some v ∧
      v ≠ 0#3)

/-- R75: the core checks nothing. Both fault ports show the frame's bits, so the consumer's check holds
exactly for the well-formed frames. -/
def Obligations.ConsistencyIsLeftToTheConsumer : Prop :=
  ∀ (p : InputPorts) (s : State), ∃ (t : State) (o : Outputs),
    step (s.present p) = .next t ∧ observe t = .next (o, t) ∧ o.hasFault = (assemble p).getLsbD 16 ∧
    (∀ i, i < 3 → o.faults.getLsbD i = (assemble p).getLsbD i) ∧
    (flagsAgree o = true ↔ frameConsistent (assemble p)) ∧
    (frameConsistent (assemble p) → o.hasFault = (faultOc o.faults || faultScg o.faults || faultScv o.faults))

/-- R71: a temperature depends on the bits of its own field only, and on no output; the two fault operations
likewise read only their own bits. -/
def Obligations.OperationsReadOnlyTheirFields : Prop :=
  ∀ (f g : Frame) (s s' : State),
    ((∀ i, 18 ≤ i → i < 32 → f.getLsbD i = g.getLsbD i) → ∃ v : BitVec 16,
      exec (decodeAt .tcC f) s = .next { s with tcC := some v } ∧
      exec (decodeAt .tcC g) s' = .next { s' with tcC := some v }) ∧
    ((∀ i, 4 ≤ i → i < 16 → f.getLsbD i = g.getLsbD i) → ∃ v : BitVec 16,
      exec (decodeAt .refC f) s = .next { s with refC := some v } ∧
      exec (decodeAt .refC g) s' = .next { s' with refC := some v }) ∧
    ((∀ i, i < 3 → f.getLsbD i = g.getLsbD i) → ∃ v : BitVec 3,
      exec (decodeAt .faults f) s = .next { s with faults := some v } ∧
      exec (decodeAt .faults g) s' = .next { s' with faults := some v }) ∧
    (f.getLsbD 16 = g.getLsbD 16 → ∃ b : Bool,
      exec (decodeAt .hasFault f) s = .next { s with hasFault := some b } ∧
      exec (decodeAt .hasFault g) s' = .next { s' with hasFault := some b })

/-- R24, R36: the frame of the four operations, in every state. Each leaves the input ports and every output port but its
own as they were, and the model's counter of free values; its own port then carries a value. -/
def Obligations.OperationsWriteOnlyTheirPorts : Prop :=
  ∀ (i : Instr) (s t : State), exec i s = .next t →
    t.input = s.input ∧ t.draws = s.draws ∧
    (i.port ≠ .tcC → t.tcC = s.tcC) ∧ (i.port = .tcC → t.tcC.isSome = true) ∧
    (i.port ≠ .refC → t.refC = s.refC) ∧ (i.port = .refC → t.refC.isSome = true) ∧
    (i.port ≠ .faults → t.faults = s.faults) ∧ (i.port = .faults → t.faults.isSome = true) ∧
    (i.port ≠ .hasFault → t.hasFault = s.hasFault) ∧ (i.port = .hasFault → t.hasFault.isSome = true)

/-! ### One evaluation (spec/10, spec/60, spec/70) -/

/-- R24, R27, R52: a step is the execution of the operations that the decoder reads from the bytes on the
input ports, all four of them, each from the same frame; what each output port carries afterwards is what
that port's operation drives at the state stepped from. THE MODEL'S CHOICE (log entry 11): the step executes them one
after another, in the order TC_CELSIUS, REF_CELSIUS, FAULT_FLAGS, HAS_FAULT; by R18 and R24 nothing sequences them,
and OrderOfOperationsIsImmaterial says that the order cannot be seen. -/
def Obligations.StepRunsTheDecodedOperations : Prop :=
  ∀ (s : State) (p : InputPorts), s.input = some p →
    (∀ is, decode [p.b0, p.b1, p.b2, p.b3] = .ok is → step s = execAll is s ∧
      is = [decodeAt .tcC (assemble p), decodeAt .refC (assemble p), decodeAt .faults (assemble p),
        decodeAt .hasFault (assemble p)]) ∧
    (∀ (i : Instr) (is : List Instr) (t : State), execAll [] t = .next t ∧
      execAll (i :: is) t = andThen (exec i t) (execAll is)) ∧
    ∃ t t₁ t₂ t₃ t₄ : State, step s = .next t ∧
      exec (decodeAt .tcC (assemble p)) s = .next t₁ ∧ t.tcC = t₁.tcC ∧
      exec (decodeAt .refC (assemble p)) s = .next t₂ ∧ t.refC = t₂.refC ∧
      exec (decodeAt .faults (assemble p)) s = .next t₃ ∧ t.faults = t₃.faults ∧
      exec (decodeAt .hasFault (assemble p)) s = .next t₄ ∧ t.hasFault = t₄.hasFault

/-- R47: every frame is legal: no evaluation and no operation faults or is refused, and every output is
defined. -/
def Obligations.EveryFrameIsLegal : Prop :=
  (∀ (i : Instr) (s : State), ∃ t : State, exec i s = .next t) ∧
  (∀ (f : Frame) (s : State), ∃ (t : State) (o : Outputs),
    step (s.present (portsOfFrame f)) = .next t ∧ observe t = .next (o, t))

/-- R18, R24: nothing sequences the operations. Running the four operations of a frame in any order gives the
same next state. -/
def Obligations.OrderOfOperationsIsImmaterial : Prop :=
  ∀ (f : Frame) (s : State) (l : List Instr), l.Perm (decodeFrame f) →
    ∃ t : State, execAll l s = .next t ∧ execAll (decodeFrame f) s = .next t

/-- R27 with R65, R68, R72, R74: a step refines the arithmetic of the rules on the frame's number and bits,
and leaves the frame on the input ports. -/
def Obligations.StepRefinesTheArithmetic : Prop :=
  ∀ (s : State) (p : InputPorts), s.input = some p → ∃ (t : State) (o : Outputs),
    step s = .next t ∧ observe t = .next (o, t) ∧ o.areOf (assemble p) ∧
    t = ⟨some p, some o.tcC, some o.refC, some o.faults, some o.hasFault, s.draws⟩

/-- R96, R16: what a step answers depends on the input ports alone, whatever the outputs carried before. The
model's own counter of free values (log entry 15) passes through a step unchanged and nothing depends on it. -/
def Obligations.StepDependsOnInputAlone : Prop :=
  ∀ s s' : State, s.input = s'.input → step { s with draws := s'.draws } = step s' ∧
    (∀ t : State, step s = .next t → t.draws = s.draws ∧ step s' = .next { t with draws := s'.draws }) ∧
    (∀ r : Fault, step s = .fault r → step s' = .fault r)

/-- R36: an evaluation leaves its input as it was, and evaluating the same frame again gives the same
outputs. -/
def Obligations.EvaluationHasNoSideEffect : Prop :=
  ∀ s t : State, step s = .next t → t.input = s.input ∧ step t = .next t

/-- R76: nothing is latched. Whatever frame was evaluated before, the outputs for the next frame are those
of that frame evaluated first after reset, also where the earlier frame's values still stand on the output ports
when the next frame arrives. (Reset is taken with the counter of free values as it stands, log entry 15.) -/
def Obligations.NothingIsLatched : Prop :=
  ∀ (p q : InputPorts) (s : State), ∃ t u : State, step (s.present p) = .next t ∧
    step (t.present q) = .next u ∧ step (t.replaceInput q) = .next u ∧ step ({ State.reset with draws := s.draws }.present q) = .next u ∧
    (∀ i, i < 3 → ∃ v : BitVec 3, u.faults = some v ∧ v.getLsbD i = (assemble q).getLsbD i) ∧
    u.hasFault = some ((assemble q).getLsbD 16)

/-- R79: sensor faults are data. The temperatures of a frame are the same whatever its fault bits, and the
step goes on. -/
def Obligations.SensorFaultsAreData : Prop :=
  ∀ (p q : InputPorts) (s : State), tcField (assemble p) = tcField (assemble q) →
    refField (assemble p) = refField (assemble q) → ∃ t u : State,
    step (s.present p) = .next t ∧ step (s.present q) = .next u ∧ t.tcC = u.tcC ∧ t.refC = u.refC ∧
    (∃ v : BitVec 16, t.tcC = some v ∧ v.toInt = tcCelsiusOf (assemble p)) ∧
    (∃ v : BitVec 16, t.refC = some v ∧ v.toInt = refCelsiusOf (assemble p))

/-- R48: frames that differ at most in the reserved bits 17 and 3 give the same outputs, and no evaluation
stops. -/
def Obligations.ReservedBitsAreIgnored : Prop :=
  ∀ (p q : InputPorts) (s : State),
    (∀ i, i < 32 → i ≠ 17 → i ≠ 3 → (assemble p).getLsbD i = (assemble q).getLsbD i) →
    ∃ (t u : State) (o : Outputs), step (s.present p) = .next t ∧ step (s.present q) = .next u ∧
      observe t = .next (o, t) ∧ observe u = .next (o, u)

/-- R91: before any frame was supplied every read of an output faults, and from the first frame on the outputs
are the functions of the inputs that the rules give. -/
def Obligations.NoValueBeforeTheFirstFrame : Prop :=
  (∀ s : State, s.input = none → readTcC s = .fault .noFramePresented ∧
    readRefC s = .fault .noFramePresented ∧ readFaults s = .fault .noFramePresented ∧
    readHasFault s = .fault .noFramePresented ∧ observe s = .fault .noFramePresented) ∧
  (∀ p : InputPorts, ∃ (t : State) (o : Outputs),
    step (State.reset.present p) = .next t ∧ observe t = .next (o, t) ∧ o.areOf (assemble p))

/-- THE MODEL'S INFERENCE (log entry 2, from R91 and R97): a run starts when a frame is presented, so a step
goes on exactly where one is; without one it faults by name, and it is refused nowhere. -/
def Obligations.StepGoesOnExactlyWithAFrame : Prop :=
  ∀ s : State, (s.input = none → step s = .fault .noFramePresented) ∧
    (s.input.isSome = true ↔ ∃ t : State, step s = .next t) ∧ ∀ r : Refusal, step s ≠ .refused r

/-- R99 and I9 of spec/93, in the form of log entries 3 and 15: no read stops once a frame is presented. From the
moment a frame other than the one on the ports is presented until the step that evaluates it, every output read goes
on with some value, of which nothing is said, and changes only the counter of free values; after the step every read
gives the value of the rules and changes nothing. -/
def Obligations.OutputsUnsettledUntilTheStep : Prop :=
  (∀ s : State, s.input.isSome = true → (∃ r, readTcC s = .next r) ∧ (∃ r, readRefC s = .next r) ∧
    (∃ r, readFaults s = .next r) ∧ (∃ r, readHasFault s = .next r) ∧ ∃ r, observe s = .next r) ∧
  (∀ (p : InputPorts) (s : State), s.input ≠ some p →
    (∃ v, readTcC (s.present p) = .next (v, { s.present p with draws := s.draws + 1 })) ∧
    (∃ v, readRefC (s.present p) = .next (v, { s.present p with draws := s.draws + 1 })) ∧
    (∃ v, readFaults (s.present p) = .next (v, { s.present p with draws := s.draws + 1 })) ∧
    (∃ v, readHasFault (s.present p) = .next (v, { s.present p with draws := s.draws + 1 }))) ∧
  (∀ (p : InputPorts) (s : State), ∃ (t : State) (a b : BitVec 16) (c : BitVec 3) (d : Bool),
    step (s.present p) = .next t ∧ readTcC t = .next (a, t) ∧ readRefC t = .next (b, t) ∧
    readFaults t = .next (c, t) ∧ readHasFault t = .next (d, t) ∧ (⟨a, b, c, d⟩ : Outputs).areOf (assemble p))

/-- R91, R99: once the outputs have settled on a frame, presenting that frame again, any number of times, changes
no input bit: every output goes on carrying the value of the rules, with no further step, and reading it draws no
free value. -/
def Obligations.SameFrameKeepsItsOutputs : Prop :=
  ∀ (s : State) (p : InputPorts) (n : Nat), ∃ (t : State) (o : Outputs), step (s.present p) = .next t ∧
    (State.present p)^[n] t = t ∧ observe ((State.present p)^[n] t) = .next (o, t) ∧ o.areOf (assemble p)

/-! ### The invariant of the ports -/

/-- R91: the invariant holds at reset, presenting a frame keeps it, and presenting a frame other than the one on
the ports gives it in any case (since, by log entry 3, no output then carries a value yet). THE MODEL'S CHOICE (log entry 14): at reset no frame is presented. -/
def Obligations.InvariantHoldsAtReset : Prop :=
  State.reset.input = none ∧ State.reset.Inv ∧
    ∀ (p : InputPorts) (s : State), s.Inv ∨ s.input ≠ some p → (s.present p).Inv

/-- R91, R24: every step keeps the invariant, and settles all four output ports. -/
def Obligations.StepKeepsTheInvariant : Prop :=
  ∀ s t : State, s.Inv → step s = .next t → t.Inv ∧ t.settled

/-! ### Programs (R53, R97) and the round trip through the machine -/

/-- R97: every program runs to its end from every state; its observation is one output tuple per line in
order, each the one the rules give for that line's frame, and its end state holds the last frame. -/
def Obligations.ProgramObservesEachFrame : Prop :=
  ∀ (ps : Program) (s : State), ∃ (os : List Outputs) (u : State),
    runProgram ps s = .next (os, u) ∧ List.Forall₂ (fun (p : InputPorts) (o : Outputs) => o.areOf (assemble p)) ps os ∧
    u.input = ps.getLast?.or s.input

/-- R97, R96, R76: the tuple observed for a line depends on that line's frame alone, even where the output ports
keep the values of every earlier line when a frame arrives (so that a core which latched, accumulated or compared
with what its outputs carried would be seen to). Run so from any two states, any two programs complete, equal
lines are observed alike, and the observation is the one of the plain run. -/
def Obligations.ProgramLinesAreIndependent : Prop :=
  ∀ (ps qs : Program) (s s' : State), ∃ (os os' : List Outputs) (u u' v : State),
    runOverStaleOutputs ps s = .next (os, u) ∧ runOverStaleOutputs qs s' = .next (os', u') ∧
    os.length = ps.length ∧ os'.length = qs.length ∧
    (∀ i j : Nat, i < ps.length → ps[i]? = qs[j]? → ∃ o, os[i]? = some o ∧ os'[j]? = some o) ∧
    runProgram ps s = .next (os, v)

/-- The round trip of R54, R67 and R70 through the whole machine: a frame built for a whole-degree thermocouple
value and any reference value, whatever the single bits, is read back exactly at the output ports. -/
def Obligations.RoundTripThroughTheMachine : Prop :=
  ∀ (a : FrameFields) (c : Int) (s : State), a.wellFormed → a.q = 4 * c →
    ∃ (t : State) (o : Outputs), step (s.present (portsOfFrame a.encode)) = .next t ∧ observe t = .next (o, t) ∧
      o.tcC = BitVec.ofInt 16 c ∧ o.tcC.toInt = c ∧ o.refC.toInt = a.r ∧ faultOc o.faults = a.oc ∧
      faultScg o.faults = a.scg ∧ faultScv o.faults = a.scv ∧ o.hasFault = a.fault

/-- R41: a table word of at most 32 bits placed on the input ports is the frame of that number, and the
very next step evaluates it (log entry 5). THE MODEL'S CHOICES (log entry 4): a word of fewer than 32 bits is
completed by zeros, and of the four operations that every frame is decoded by, the table's question is answered
with TC_CELSIUS. -/
def Obligations.FetchWordIsTheNextFrame : Prop :=
  ∀ (nbits w : Nat) (s : State), nbits ≤ 32 → w < 2 ^ nbits → ∃ (p : InputPorts) (t : State) (o : Outputs),
    (s.withFetchWord nbits w).input = some p ∧ (assemble p).toNat = w ∧
    step (s.withFetchWord nbits w) = .next t ∧ observe t = .next (o, t) ∧ o.areOf (BitVec.ofNat 32 w) ∧
    decodeTableWord nbits w = some (decodeAt .tcC (BitVec.ofNat 32 w))
end

