-- ==== Sys2Proof/Laws/Primitives.lean ====
section
/-! SUPPORT. The datapath primitives in the terms of the library: bits, numbers, and the library's own shift. -/

namespace Sys2Proof

/-- A bit of an extracted field is the frame's bit at the field's offset (R56). -/
theorem getLsbD_extractU (f : Frame) (hi lo i : Nat) :
    (extractU f hi lo).getLsbD i = (decide (i < hi - lo + 1) && f.getLsbD (lo + i)) := by
  simp only [extractU, BitVec.getLsbD_extractLsb, Nat.lt_succ_iff]

/-- An extracted field as a number (R56). -/
theorem toNat_extractU (f : Frame) (hi lo : Nat) :
    (extractU f hi lo).toNat = f.toNat / 2 ^ lo % 2 ^ (hi - lo + 1) := by
  simp [extractU, BitVec.extractLsb_toNat, Nat.shiftRight_eq_div_pow]

/-- A bit of the assembled frame, by the byte it lies in (R30). -/
theorem getLsbD_assemble (p : InputPorts) (i : Nat) :
    (assemble p).getLsbD i =
      if i < 8 then p.b3.getLsbD i else if i < 16 then p.b2.getLsbD (i - 8)
      else if i < 24 then p.b1.getLsbD (i - 16) else p.b0.getLsbD (i - 24) := by
  unfold assemble
  rw [BitVec.getLsbD_append, BitVec.getLsbD_append, BitVec.getLsbD_append]
  repeat' split
  all_goals first | rfl | (exfalso; omega)

namespace Machine

theorem sext_of_le {w k : Nat} (h : k ≤ w) (v : BitVec k) : sext w v = some (v.signExtend w) := by
  simp [sext, h]

theorem sext_of_lt {w k : Nat} (h : w < k) (v : BitVec k) : sext w v = none := by
  simp [sext, Nat.not_le.mpr h]

/-- Inside its domain the signed extract is the library's sign extension of the field (R57). -/
theorem extractS_of_le {w hi lo : Nat} (h : lo ≤ hi) (h' : hi ≤ 31) (hk : hi - lo + 1 ≤ w) (f : Frame) :
    extractS w f hi lo = some ((extractU f hi lo).signExtend w) := by
  rw [extractS, if_pos ⟨h, Nat.lt_succ_of_le h'⟩, sext_of_le hk]

/-- The signed extract gives a value only inside its domain (log entry 7). -/
theorem domain_of_extractS {w hi lo : Nat} {f : Frame} {v : BitVec w} (h : extractS w f hi lo = some v) :
    lo ≤ hi ∧ hi ≤ 31 ∧ hi - lo + 1 ≤ w := by
  simp only [extractS, sext, Config.frameW] at h
  split at h
  · split at h
    · omega
    · cases h
  · cases h

/-- Inside its domain ASR is the library's arithmetic shift (R59). -/
theorem asr_of_lt {w s : Nat} (h : s < w) (v : BitVec w) : asr v s = some (v.sshiftRight s) := by
  simp only [asr, h, if_true, Option.some.injEq]
  refine BitVec.eq_of_getLsbD_eq fun i hi => ?_
  have hmsb : (v.extractLsb (w - 1) s).msb = v.msb := by
    rw [BitVec.msb_eq_getLsbD_last, BitVec.msb_eq_getLsbD_last, BitVec.getLsbD_extractLsb]
    rw [decide_eq_true (show w - 1 - s + 1 - 1 < w - 1 - s + 1 by omega), Bool.true_and]
    exact congrArg _ (by omega)
  rw [BitVec.getLsbD_signExtend, BitVec.getLsbD_sshiftRight, hmsb, BitVec.getLsbD_extractLsb]
  by_cases h1 : s + i < w
  · simp [hi, h1, show i < w - 1 - s + 1 by omega, show ¬ w ≤ i by omega]
  · simp [hi, h1, show ¬ i < w - 1 - s + 1 by omega, show ¬ w ≤ i by omega]

/-- Outside its domain ASR gives no value (R61). -/
theorem asr_of_ge {w s : Nat} (h : w ≤ s) (v : BitVec w) : asr v s = none := by
  simp [asr, Nat.not_lt.mpr h]

/-- The temperature datapath inside its domain. -/
theorem temperature_of_lt {w s k : Nat} (hk : k ≤ w) (hs : s < w) (v : BitVec k) :
    temperature w s v = some ((v.signExtend w).sshiftRight s) := by
  simp [temperature, sext_of_le hk, asr_of_lt hs]

/-- The integer that the temperature datapath computes: the field's value over 2^s, rounded down. -/
theorem toInt_temperature {w s k : Nat} (hk : k ≤ w) (v : BitVec k) :
    ((v.signExtend w).sshiftRight s).toInt = v.toInt.fdiv (2 ^ s) := by
  rw [BitVec.toInt_sshiftRight, BitVec.toInt_signExtend_of_le hk, Int.shiftRight_eq_div_pow,
    Int.fdiv_eq_ediv_of_nonneg _ (by positivity)]
  simp

/-- The three flags lie in the port's three bits (R72). -/
theorem getLsbD_packFaults (oc scg scv : Bool) :
    (packFaults oc scg scv).getLsbD 0 = oc ∧ (packFaults oc scg scv).getLsbD 1 = scg ∧
      (packFaults oc scg scv).getLsbD 2 = scv := by
  cases oc <;> cases scg <;> cases scv <;> decide

end Machine

end Sys2Proof
end

