-- ==== Sys2Proof/Laws/Encoding.lean ====
section
/-! SUPPORT. The bits of what the encoders build: the operand's bits in the operation's own field, the other
frame's bits elsewhere. -/

namespace Sys2Proof

theorem getLsbD_bit (b : Bool) (i : Nat) : (bit b).getLsbD i = (decide (i = 0) && b) := by
  cases b <;> cases i <;> simp [bit]

theorem getLsbD_encodeInto_tcCelsius (base : Frame) (tc : BitVec 14) {i : Nat} (hi : i < 32) :
    (encodeInto base (.tcCelsius tc)).getLsbD i = if 18 ≤ i then tc.getLsbD (i - 18) else base.getLsbD i := by
  unfold encodeInto
  rw [BitVec.getLsbD_append, getLsbD_extractU]
  split <;> split <;> first | rfl | (exfalso; omega) | simp_all [show i < 18 by omega]

theorem getLsbD_encodeInto_refCelsius (base : Frame) (ref : BitVec 12) {i : Nat} (hi : i < 32) :
    (encodeInto base (.refCelsius ref)).getLsbD i =
      if 4 ≤ i ∧ i < 16 then ref.getLsbD (i - 4) else base.getLsbD i := by
  unfold encodeInto
  rw [BitVec.getLsbD_append, BitVec.getLsbD_append, getLsbD_extractU, getLsbD_extractU]
  rcases Nat.lt_or_ge i 4 with h | h
  · simp [show i < 3 - 0 + 1 by omega, show ¬ 4 ≤ i by omega]
  · rcases Nat.lt_or_ge i 16 with h' | h'
    · simp [show ¬ i < 3 - 0 + 1 by omega, h, h', show i - 4 < 12 by omega]
    · simp [show ¬ i < 3 - 0 + 1 by omega, show ¬ i < 16 by omega, show ¬ i - 4 < 12 by omega,
        show i - 4 - 12 < 16 by omega, show 16 + (i - 4 - 12) = i by omega]

theorem getLsbD_encodeInto_faultFlags (base : Frame) (oc scg scv : Bool) {i : Nat} (hi : i < 32) :
    (encodeInto base (.faultFlags oc scg scv)).getLsbD i =
      if i = 0 then oc else if i = 1 then scg else if i = 2 then scv else base.getLsbD i := by
  unfold encodeInto
  rw [BitVec.getLsbD_append, BitVec.getLsbD_append, BitVec.getLsbD_append, getLsbD_extractU, getLsbD_bit,
    getLsbD_bit, getLsbD_bit]
  rcases i with _ | _ | _ | i
  · simp
  · simp
  · simp
  · simp [show i < 29 by omega, show 3 + i = i + 1 + 1 + 1 by omega]

theorem getLsbD_encodeInto_hasFault (base : Frame) (fault : Bool) {i : Nat} (hi : i < 32) :
    (encodeInto base (.hasFault fault)).getLsbD i = if i = 16 then fault else base.getLsbD i := by
  unfold encodeInto
  rw [BitVec.getLsbD_append, BitVec.getLsbD_append, getLsbD_extractU, getLsbD_extractU, getLsbD_bit]
  rcases Nat.lt_trichotomy i 16 with h | h | h
  · simp [h, show i ≠ 16 by omega]
  · simp [h]
  · simp [show ¬ i < 16 by omega, show ¬ i - 16 < 1 by omega, show i ≠ 16 by omega,
      show i - 16 - 1 < 15 by omega, show 17 + (i - 16 - 1) = i by omega]

/-- The bits of the masks are the bit positions of the opcode table's fields. -/
theorem getLsbD_operandMask (port : Port) {i : Nat} (hi : i < 32) :
    (operandMask port).getLsbD i = match port with
      | .tcC => decide (18 ≤ i)
      | .refC => decide (4 ≤ i ∧ i < 16)
      | .faults => decide (i < 3)
      | .hasFault => decide (i = 16) := by
  revert i
  cases port <;> decide

end Sys2Proof
end

