-- ==== Sys2Proof/Laws/State.lean ====
section
/-! SUPPORT. What each port update does to each field of the state, one lemma per field per update. -/

namespace Sys2Proof.Machine

section
variable (s : State) (p : InputPorts) (t : BitVec Config.outW) (f : BitVec 3) (h : Bool)

/-- Presenting the frame that stands on the input ports changes nothing (R91). -/
theorem State.present_same (h : s.input = some p) : s.present p = s := if_pos h

/-- Presenting another frame takes the values off the output ports (R99). -/
theorem State.present_new (h : s.input ≠ some p) : s.present p = ⟨some p, none, none, none, none, s.draws⟩ := if_neg h

@[simp] theorem State.present_input : (s.present p).input = some p := by
  by_cases h : s.input = some p <;> simp [State.present, h]
@[simp] theorem State.present_draws : (s.present p).draws = s.draws := by
  by_cases h : s.input = some p <;> simp [State.present, h]
@[simp] theorem State.present_tcC : (s.present p).tcC = if s.input = some p then s.tcC else none := by
  by_cases h : s.input = some p <;> simp [State.present, h]
@[simp] theorem State.present_refC : (s.present p).refC = if s.input = some p then s.refC else none := by
  by_cases h : s.input = some p <;> simp [State.present, h]
@[simp] theorem State.present_faults : (s.present p).faults = if s.input = some p then s.faults else none := by
  by_cases h : s.input = some p <;> simp [State.present, h]
@[simp] theorem State.present_hasFault : (s.present p).hasFault = if s.input = some p then s.hasFault else none := by
  by_cases h : s.input = some p <;> simp [State.present, h]

@[simp] theorem State.driveTcC_input : (s.driveTcC t).input = s.input := rfl
@[simp] theorem State.driveTcC_tcC : (s.driveTcC t).tcC = some t := rfl
@[simp] theorem State.driveTcC_refC : (s.driveTcC t).refC = s.refC := rfl
@[simp] theorem State.driveTcC_faults : (s.driveTcC t).faults = s.faults := rfl
@[simp] theorem State.driveTcC_hasFault : (s.driveTcC t).hasFault = s.hasFault := rfl
@[simp] theorem State.driveTcC_draws : (s.driveTcC t).draws = s.draws := rfl

@[simp] theorem State.driveRefC_input : (s.driveRefC t).input = s.input := rfl
@[simp] theorem State.driveRefC_tcC : (s.driveRefC t).tcC = s.tcC := rfl
@[simp] theorem State.driveRefC_refC : (s.driveRefC t).refC = some t := rfl
@[simp] theorem State.driveRefC_faults : (s.driveRefC t).faults = s.faults := rfl
@[simp] theorem State.driveRefC_hasFault : (s.driveRefC t).hasFault = s.hasFault := rfl
@[simp] theorem State.driveRefC_draws : (s.driveRefC t).draws = s.draws := rfl

@[simp] theorem State.driveFaults_input : (s.driveFaults f).input = s.input := rfl
@[simp] theorem State.driveFaults_tcC : (s.driveFaults f).tcC = s.tcC := rfl
@[simp] theorem State.driveFaults_refC : (s.driveFaults f).refC = s.refC := rfl
@[simp] theorem State.driveFaults_faults : (s.driveFaults f).faults = some f := rfl
@[simp] theorem State.driveFaults_hasFault : (s.driveFaults f).hasFault = s.hasFault := rfl
@[simp] theorem State.driveFaults_draws : (s.driveFaults f).draws = s.draws := rfl

@[simp] theorem State.driveHasFault_input : (s.driveHasFault h).input = s.input := rfl
@[simp] theorem State.driveHasFault_tcC : (s.driveHasFault h).tcC = s.tcC := rfl
@[simp] theorem State.driveHasFault_refC : (s.driveHasFault h).refC = s.refC := rfl
@[simp] theorem State.driveHasFault_faults : (s.driveHasFault h).faults = s.faults := rfl
@[simp] theorem State.driveHasFault_hasFault : (s.driveHasFault h).hasFault = some h := rfl
@[simp] theorem State.driveHasFault_draws : (s.driveHasFault h).draws = s.draws := rfl

@[simp] theorem State.draw_input : s.draw.input = s.input := rfl
@[simp] theorem State.draw_tcC : s.draw.tcC = s.tcC := rfl
@[simp] theorem State.draw_refC : s.draw.refC = s.refC := rfl
@[simp] theorem State.draw_faults : s.draw.faults = s.faults := rfl
@[simp] theorem State.draw_hasFault : s.draw.hasFault = s.hasFault := rfl
@[simp] theorem State.draw_draws : s.draw.draws = s.draws + 1 := rfl

end

end Sys2Proof.Machine
end

