-- ==== Sys2Proof/Laws/Ops.lean ====
section
/-! SUPPORT. What each shared operation over the ports can answer, said once. -/

namespace Sys2Proof.Machine

@[simp] theorem andThen_next {α β : Type} (a : α) (g : α → Host.Outcome β Fault Refusal) :
    andThen (.next a) g = g a := rfl
@[simp] theorem andThen_fault {α β : Type} (r : Fault) (g : α → Host.Outcome β Fault Refusal) :
    andThen (.fault r) g = .fault r := rfl
@[simp] theorem andThen_refused {α β : Type} (r : Refusal) (g : α → Host.Outcome β Fault Refusal) :
    andThen (.refused r) g = .refused r := rfl

/-- A sequence goes on exactly where both of its parts do. -/
theorem andThen_eq_next {α β : Type} {o : Host.Outcome α Fault Refusal}
    {g : α → Host.Outcome β Fault Refusal} {b : β} :
    andThen o g = .next b ↔ ∃ a, o = .next a ∧ g a = .next b := by
  cases o <;> simp

/-- Fetching goes on exactly where a frame is presented, with the assembled frame. -/
theorem fetchFrame_eq_next {s : State} {f : Frame} :
    fetchFrame s = .next f ↔ ∃ p, s.input = some p ∧ assemble p = f := by
  cases h : s.input <;> simp [fetchFrame, h]

/-- Fetching without a frame faults (R91). -/
theorem fetchFrame_none {s : State} (h : s.input = none) : fetchFrame s = .fault .noFramePresented := by
  simp [fetchFrame, h]

/-- A read goes on exactly where a frame is presented: with the port's value and the state as it was, or, where the
port has none yet, with the next free value. -/
theorem readOutput_eq_next {α : Type} {free : Nat → α} {v : Option α} {s : State} {r : α × State} :
    readOutput free v s = .next r ↔
      s.input.isSome = true ∧ ((v = some r.1 ∧ s = r.2) ∨ (v = none ∧ (free s.draws, s.draw) = r)) := by
  obtain ⟨a, t⟩ := r
  cases h : s.input <;> cases v <;> simp [readOutput, h]

/-- A read without a frame faults (R91). -/
theorem readOutput_none {α : Type} {free : Nat → α} {v : Option α} {s : State} (h : s.input = none) :
    readOutput free v s = .fault .noFramePresented := by
  simp [readOutput, h]

/-- Presenting a buffer goes on exactly where it has four bytes, which then are on the ports in order. -/
theorem presentBytes_eq_next {bs : List Byte} {s t : State} :
    presentBytes bs s = .next t ↔ ∃ p : InputPorts, bs = [p.b0, p.b1, p.b2, p.b3] ∧ t = s.present p := by
  constructor
  · intro h
    match bs with
    | [b0, b1, b2, b3] =>
      refine ⟨⟨b0, b1, b2, b3⟩, rfl, ?_⟩
      simpa [presentBytes, portsOfBytes, eq_comm] using h
    | [] | [_] | [_, _] | [_, _, _] | _ :: _ :: _ :: _ :: _ :: _ => simp [presentBytes, portsOfBytes] at h
  · rintro ⟨p, rfl, rfl⟩
    rfl

end Sys2Proof.Machine
end

