-- ==== Sys2Proof/Laws/Exec.lean ====
section
/-! SUPPORT. What each operation and one evaluation answer, said once. -/

namespace Sys2Proof.Machine

/-- What TC_CELSIUS answers in the library's terms. -/
theorem execTcCelsius_eq (tc : BitVec 14) (s : State) :
    execTcCelsius tc s = .next (s.driveTcC ((tc.signExtend 16).sshiftRight 2)) := by
  rw [execTcCelsius, temperature_of_lt (by decide) (by decide)]

/-- What REF_CELSIUS answers in the library's terms: no shift takes place (REF_SHIFT = 0). -/
theorem execRefCelsius_eq (ref : BitVec 12) (s : State) :
    execRefCelsius ref s = .next (s.driveRefC (ref.signExtend 16)) := by
  rw [execRefCelsius, temperature_of_lt (by decide) (by decide)]
  simp

/-- What one evaluation answers, all four ports at once. -/
theorem evaluate_eq {s : State} {p : InputPorts} (h : s.input = some p) :
    evaluate s = .next ⟨some p, some (((tcField (assemble p)).signExtend 16).sshiftRight 2),
      some ((refField (assemble p)).signExtend 16),
      some (packFaults (demux (assemble p)).oc (demux (assemble p)).scg (demux (assemble p)).scv),
      some (demux (assemble p)).agg, s.draws⟩ := by
  obtain ⟨_, t, r, f, b, n⟩ := s
  subst h
  simp [evaluate, fetchFrame, decodeFrame, decodeAt, execAll, exec, execTcCelsius_eq, execRefCelsius_eq,
    execFaultFlags, execHasFault, State.driveTcC, State.driveRefC, State.driveFaults, State.driveHasFault]

/-- Without a frame there is no evaluation (R91). -/
theorem evaluate_none {s : State} (h : s.input = none) : evaluate s = .fault .noFramePresented := by
  simp [evaluate, fetchFrame_none h]

/-- An evaluation goes on exactly where a frame is presented, and leaves that frame on the input ports. -/
theorem evaluate_eq_next {s t : State} (h : evaluate s = .next t) :
    ∃ p, s.input = some p ∧ t = ⟨some p, some (((tcField (assemble p)).signExtend 16).sshiftRight 2),
      some ((refField (assemble p)).signExtend 16),
      some (packFaults (demux (assemble p)).oc (demux (assemble p)).scg (demux (assemble p)).scv),
      some (demux (assemble p)).agg, s.draws⟩ := by
  cases hs : s.input with
  | none => simp [evaluate_none hs] at h
  | some p =>
    rw [evaluate_eq hs, Host.Outcome.next.injEq] at h
    exact ⟨p, rfl, h.symm⟩

/-- A list of operations goes on exactly where its head does and the rest does from there. -/
theorem execAll_cons_eq_next {i : Instr} {is : List Instr} {s t : State} :
    execAll (i :: is) s = .next t ↔ ∃ u, exec i s = .next u ∧ execAll is u = .next t :=
  andThen_eq_next

/-- Observing changes nothing exactly where a frame is presented and all four ports carry a value. -/
theorem observe_eq_next_self {s : State} {o : Outputs} :
    observe s = .next (o, s) ↔ s.input.isSome = true ∧ s.tcC = some o.tcC ∧ s.refC = some o.refC ∧
      s.faults = some o.faults ∧ s.hasFault = some o.hasFault := by
  obtain ⟨i, t, r, f, b, n⟩ := s
  obtain ⟨t', r', f', b'⟩ := o
  cases i <;> cases t <;> cases r <;> cases f <;> cases b <;>
    simp [observe, readTcC, readRefC, readFaults, readHasFault, readOutput, State.draw]
  all_goals (intros; omega)

/-- With a frame presented every observation goes on, and changes at most the counter of free values. -/
theorem observe_of_input {s : State} (h : s.input.isSome = true) :
    ∃ o n, observe s = .next (o, { s with draws := s.draws + n }) := by
  obtain ⟨i, t, r, f, b, n⟩ := s
  cases i <;> cases t <;> cases r <;> cases f <;> cases b <;>
    simp_all [observe, readTcC, readRefC, readFaults, readHasFault, readOutput, State.draw, Nat.add_assoc]

/-- A program's first line is presented, evaluated and observed before the rest runs (R97). -/
theorem runProgram_cons_eq_next {p : InputPorts} {ps : Program} {s : State} {r : List Outputs × State} :
    runProgram (p :: ps) s = .next r ↔ ∃ t o rest, decodeLine p s = .next t ∧ observe t = .next o ∧
      runProgram ps o.2 = .next rest ∧ r = (o.1 :: rest.1, rest.2) := by
  simp only [runProgram, andThen_eq_next, Host.Outcome.next.injEq]
  constructor
  · rintro ⟨t, ht, o, ho, rest, hr, rfl⟩
    exact ⟨t, o, rest, ht, ho, hr, rfl⟩
  · rintro ⟨t, o, rest, ht, ho, hr, rfl⟩
    exact ⟨t, ht, o, ho, rest, hr, rfl⟩

end Sys2Proof.Machine
end

