-- ==== Sys2Proof/Laws/PerInstr.lean ====
section
/-! SUPPORT. The family OperandBits, over the operations as syntax: an operation's own encoding lies wholly
in the frame bits its opcode-table row lists. -/

namespace Sys2Proof.Laws.OperandBits

/-- The encoding of an operation in an otherwise zero frame has no bit outside that operation's fields. -/
def Statement (i : Instr) : Prop := encode i &&& ~~~ operandMask i.port = 0

/-- It is enough that every bit of the encoding is a bit of the mask. -/
theorem of_bits {i : Instr}
    (h : ∀ j, j < 32 → (encode i).getLsbD j = true → (operandMask i.port).getLsbD j = true) : Statement i := by
  refine BitVec.eq_of_getLsbD_eq fun j hj => ?_
  have := h j hj
  cases he : (encode i).getLsbD j <;> simp_all

theorem tcCelsius (tc : BitVec 14) : Statement (.tcCelsius tc) := of_bits fun j hj h => by
  rw [encode, getLsbD_encodeInto_tcCelsius _ _ hj] at h
  rw [getLsbD_operandMask _ hj]
  simp_all [Instr.port]

theorem refCelsius (ref : BitVec 12) : Statement (.refCelsius ref) := of_bits fun j hj h => by
  rw [encode, getLsbD_encodeInto_refCelsius _ _ hj] at h
  rw [getLsbD_operandMask _ hj]
  simp_all [Instr.port]

theorem faultFlags (oc scg scv : Bool) : Statement (.faultFlags oc scg scv) := of_bits fun j hj h => by
  rw [encode, getLsbD_encodeInto_faultFlags _ _ _ _ hj] at h
  rw [getLsbD_operandMask _ hj]
  simp only [Instr.port, decide_eq_true_eq]
  by_contra hn
  simp_all [show j ≠ 0 by omega, show j ≠ 1 by omega, show j ≠ 2 by omega]

theorem hasFault (fault : Bool) : Statement (.hasFault fault) := of_bits fun j hj h => by
  rw [encode, getLsbD_encodeInto_hasFault _ _ hj] at h
  rw [getLsbD_operandMask _ hj]
  simp_all [Instr.port]

end Sys2Proof.Laws.OperandBits
end

