-- ==== Sys2Proof/Laws/Safety.lean ====
section
/-! SUPPORT. The claims' own terms: each field after the input alone is replaced, and a run over stale outputs
line by line. -/

namespace Sys2Proof.Machine

section
variable (s : State) (p : InputPorts)

@[simp] theorem State.replaceInput_input : (s.replaceInput p).input = some p := rfl
@[simp] theorem State.replaceInput_tcC : (s.replaceInput p).tcC = s.tcC := rfl
@[simp] theorem State.replaceInput_refC : (s.replaceInput p).refC = s.refC := rfl
@[simp] theorem State.replaceInput_faults : (s.replaceInput p).faults = s.faults := rfl
@[simp] theorem State.replaceInput_hasFault : (s.replaceInput p).hasFault = s.hasFault := rfl
@[simp] theorem State.replaceInput_draws : (s.replaceInput p).draws = s.draws := rfl

end

/-- The first line of a run over stale outputs is evaluated and observed before the rest runs. -/
theorem runOverStaleOutputs_cons_eq_next {p : InputPorts} {ps : Program} {s : State} {r : List Outputs × State} :
    runOverStaleOutputs (p :: ps) s = .next r ↔ ∃ t o rest, step (s.replaceInput p) = .next t ∧
      observe t = .next o ∧ runOverStaleOutputs ps o.2 = .next rest ∧ r = (o.1 :: rest.1, rest.2) := by
  simp only [runOverStaleOutputs, andThen_eq_next, Host.Outcome.next.injEq]
  constructor
  · rintro ⟨t, ht, o, ho, rest, hr, rfl⟩
    exact ⟨t, o, rest, ht, ho, hr, rfl⟩
  · rintro ⟨t, o, rest, ht, ho, hr, rfl⟩
    exact ⟨t, ht, o, ho, rest, hr, rfl⟩

end Sys2Proof.Machine
end

