-- ==== Sys2Proof/Tests/Slice0.lean ====
section
/-! SUPPORT. The model's own tests. Expected values come from spec/30 and the tables of spec/95, never from the
model. The last part gives a witness for the hypotheses of every statement that has any. -/

namespace Sys2Proof.Tests

open Sys2Proof.Machine

/-- The next state of an outcome, if there is one. -/
def nextOf (o : Host.Outcome State Fault Refusal) : Option State :=
  match o with
  | .next s => some s
  | .fault _ => none
  | .refused _ => none

/-- The output tuple read after one step on a frame given by its bytes. -/
def outputsOf (b0 b1 b2 b3 : Byte) : Option Outputs :=
  match andThen (step (State.reset.present ⟨b0, b1, b2, b3⟩)) observe with
  | .next o => some o.1
  | .fault _ => none
  | .refused _ => none

/-! ### WellFormed refuses an ill-formed term for each check -/

/-- OUT_W below 14 (R8). -/
theorem test_params_narrow_refused : ¬ Params.legal ⟨13, 0⟩ := by decide
/-- REF_SHIFT outside {0, 4} (R8). -/
theorem test_params_shift_refused : ¬ Params.legal ⟨16, 2⟩ := by decide
/-- This hardware's parameters are legal (R4, R8). -/
theorem test_params_this_hardware : Config.thisHardware.legal := by decide
/-- q beyond either end of −8192 … 8191 (R45, R54). -/
theorem test_fields_q_refused : ¬ FrameFields.wellFormed ⟨-8193, 0, false, false, false, false, false, false⟩ ∧
    ¬ FrameFields.wellFormed ⟨8192, 0, false, false, false, false, false, false⟩ := by decide
/-- r beyond either end of −2048 … 2047 (R46, R54). -/
theorem test_fields_r_refused : ¬ FrameFields.wellFormed ⟨0, -2049, false, false, false, false, false, false⟩ ∧
    ¬ FrameFields.wellFormed ⟨0, 2048, false, false, false, false, false, false⟩ := by decide
/-- A buffer of three or of five bytes (R26, R78). -/
theorem test_buffer_refused : ¬ bufferWellFormed [1, 2, 3] ∧ ¬ bufferWellFormed [1, 2, 3, 4, 5] := by decide

/-! ### Decoding: words written out bit by bit from R42 -/

/-- TC field 11 1111 1111 1100 (−4 quarter degrees) in bits 31:18 (R42; E1 of spec/95). -/
theorem test_decode_tc : decodeAt .tcC 0b11111111111100_0_0_000000000000_0_0_0_0#32 = .tcCelsius 0b11111111111100#14 := by
  decide
/-- REF field 1110 0111 0000 in bits 15:4, every other bit set (R42). -/
theorem test_decode_ref : decodeAt .refC 0b11111111111111_1_1_111001110000_1_1_1_1#32 = .refCelsius 0b111001110000#12 := by
  decide
/-- SCV and OC set, SCG clear: bits 2, 1, 0 are 1, 0, 1 (R42, R62). -/
theorem test_decode_flags :
    decodeAt .faults 0b00000000000000_0_1_000000000000_0_1_0_1#32 = .faultFlags true false true := by decide
/-- The aggregate bit is bit 16, not bit 17 (R42). -/
theorem test_decode_has_fault : decodeAt .hasFault 0b00000000000000_0_1_000000000000_0_0_0_0#32 = .hasFault true ∧
    decodeAt .hasFault 0b11111111111111_1_0_111111111111_1_1_1_1#32 = .hasFault false := by decide
/-- byte0 is the most significant byte (V1 of spec/95). -/
theorem test_assemble : assemble ⟨0x12, 0x34, 0x56, 0x78⟩ = 0x12345678#32 := by decide
/-- R54 on the last line of program P4: C = −25, r = −400. -/
theorem test_build_frame :
    FrameFields.encode ⟨4 * (-25), -400, false, false, false, false, false, false⟩ = 0xFE70E700#32 := by decide
/-- A table word is the 32-bit frame, bit for bit (R42, R52; log entry 4). -/
theorem test_table_word : decodeTableWord 32 0x01901900 = some (.tcCelsius 0x0064#14) ∧
    decodeTableWord 33 0x01901900 = none := by decide

/-! ### The primitives (V2 and V3 of spec/95) -/

/-- The most negative field of each size. -/
theorem test_extract_signed : extractS 16 0x80000000#32 31 18 = some 0xE000#16 ∧
    extractS 16 0x80000000#32 15 4 = some 0x0000#16 := by decide
/-- Floor, not truncation: −5 shifted by 2 is −2. -/
theorem test_asr_floor : asr 0xFFFB#16 2 = some 0xFFFE#16 ∧ asr 0xFFF0#16 4 = some 0xFFFF#16 := by decide
/-- The domain's upper end has a value; one bit above it there is none (R56, R57; log entry 7). -/
theorem test_extract_domain : extractS 16 0x80000000#32 31 31 = some 0xFFFF#16 ∧
    extractS 16 0x80000000#32 32 31 = none ∧ extractS 16 0x80000000#32 17 18 = none := by decide
/-- A shift of the width is refused (R61). -/
theorem test_asr_refused : asr 0xFFFB#16 16 = none := by decide

/-! ### The operations, one step each -/

/-- V4: field 0x3FFB (−1.25 °C) gives −2. -/
theorem test_tc_floor : nextOf (exec (.tcCelsius 0x3FFB#14) State.reset) = some ⟨none, some 0xFFFE#16, none, none, none, 0⟩ := by
  decide
/-- V4: the most negative field gives −2048. -/
theorem test_tc_min : nextOf (exec (.tcCelsius 0x2000#14) State.reset) = some ⟨none, some 0xF800#16, none, none, none, 0⟩ := by
  decide
/-- V5: field 0x00F gives 15, so no shift takes place. -/
theorem test_ref_no_shift : nextOf (exec (.refCelsius 0x00F#12) State.reset) = some ⟨none, none, some 0x000F#16, none, none, 0⟩ := by
  decide
/-- V5: the most negative field gives −2048. -/
theorem test_ref_min : nextOf (exec (.refCelsius 0x800#12) State.reset) = some ⟨none, none, some 0xF800#16, none, none, 0⟩ := by
  decide
/-- D15: faults[0] is OC and faults[2] is SCV. -/
theorem test_flags_order : nextOf (exec (.faultFlags true false false) State.reset) =
    some ⟨none, none, none, some 0b001#3, none, 0⟩ := by decide
/-- V6: OC clear, SCG and SCV set. -/
theorem test_flags_two : nextOf (exec (.faultFlags false true true) State.reset) =
    some ⟨none, none, none, some 0b110#3, none, 0⟩ := by decide
/-- R74: the aggregate bit is shown as it is. -/
theorem test_has_fault : nextOf (exec (.hasFault true) State.reset) = some ⟨none, none, none, none, some true, 0⟩ := by decide

/-! ### Whole frames (V8 of spec/95) -/

/-- tc_q = −249, floor(−62.25) = −63, reserved bit 17 set and ignored. -/
theorem test_frame_negative_all_faults : outputsOf 0xFC 0x1F 0xE7 0x07 = some ⟨0xFFC1, 0xFE70, 0b111, true⟩ := by decide
/-- Not well-formed: SCG and SCV set but bit 16 clear. -/
theorem test_frame_inconsistent : outputsOf 0x06 0x40 0x19 0xF6 = some ⟨0x0064, 0x019F, 0b110, false⟩ := by decide
/-- R91: reset carries no frame, so there is nothing to step. -/
theorem test_reset_step : step State.reset = .fault .noFramePresented := rfl
/-- R99, I9: two reads before the outputs settle may show two values, and neither stops the run. -/
theorem test_read_unsettled_draws : (match andThen (readTcC (State.reset.present ⟨0, 0, 0, 7⟩)) (fun r => readTcC r.2) with
    | .next r => r.2.draws
    | .fault _ => 0
    | .refused _ => 0) = 2 := by decide
/-- R91: the settled frame presented again keeps its outputs, another frame does not. -/
theorem test_present_again : ((⟨some ⟨0, 1, 0, 1⟩, some 0, some 0, some 1, some true, 0⟩ : State).present ⟨0, 1, 0, 1⟩).faults =
    some 1 ∧ ((⟨some ⟨0, 1, 0, 1⟩, some 0, some 0, some 1, some true, 0⟩ : State).present ⟨0, 1, 0, 3⟩).faults = none := by
  decide
/-- The host's placing of a word: the very next step evaluates it (log entry 5). -/
theorem test_fetch_word : nextOf (step (State.reset.withFetchWord 32 0x00010001)) =
    some ⟨some ⟨0x00, 0x01, 0x00, 0x01⟩, some 0, some 0, some 0b001, some true, 0⟩ := by decide

/-! ### Witnesses: the hypotheses of each statement can be met together, at the ends of their ranges -/

theorem test_wit_WrongLength : ¬ bufferWellFormed [] ∧ ¬ bufferWellFormed [0, 0, 0, 0, 0] ∧
    bufferWellFormed [0, 0, 0, 0] := by decide
theorem test_wit_DecodeOfBuiltFrame : FrameFields.wellFormed ⟨-8192, 2047, true, false, true, false, true, false⟩ ∧
    FrameFields.wellFormed ⟨8191, -2048, false, true, false, true, false, true⟩ := by decide
theorem test_wit_EncodingLeavesOtherFields : Port.tcC ≠ (Instr.refCelsius 0xFFF#12).port := by decide
theorem test_wit_ExtractUnsigned : 0 ≤ 31 ∧ 31 ≤ 31 ∧ 31 ≤ 31 - 0 ∧ 18 ≤ 31 := by decide
theorem test_wit_ExtractSigned : 18 ≤ 31 ∧ 31 ≤ 31 ∧ 31 - 18 + 1 ≤ 14 ∧
    (extractU 0xFFFC0000#32 31 18).toNat = 2 ^ (31 - 18 + 1) - 1 ∧ (extractU 0x80000000#32 31 18).toNat = 2 ^ (31 - 18) := by
  decide
theorem test_wit_NarrowExtract : 13 < 31 - 18 + 1 ∧ 11 < 15 - 4 + 1 ∧ Params.legal ⟨14, 4⟩ ∧ 17 < 18 ∧ 31 < 32 := by
  decide
theorem test_wit_SignedFieldValue : extractS 14 0x80000000#32 31 18 = some 0x2000#14 ∧
    extractS 12 0x00007FF0#32 15 4 = some 0x7FF#12 := by decide
theorem test_wit_AsrIsFloorDivision : 15 < 16 ∧ 0 < 16 - 15 ∧ 16 - 15 ≤ 15 := by decide
theorem test_wit_AsrIsNotLogicalShift : 0 < 1 ∧ 1 < 16 ∧ (0x8000#16).toInt < 0 := by decide
theorem test_wit_AsrDomain : Params.legal ⟨14, 4⟩ ∧ 16 ≤ 16 ∧ 0 < 1 := by decide
theorem test_wit_NothingOverflows : (-8192 ≤ (0xE000#16).toInt ∧ (0xE000#16).toInt ≤ 8191 ∧
    asr 0xE000#16 2 = some 0xF800#16) ∧ -2048 ≤ (0xF800#16).toInt ∧ (0xF800#16).toInt ≤ 2047 ∧
    asr 0xF800#16 4 = some 0xFF80#16 := by decide
theorem test_wit_ShiftOfExtract : 14 ≤ 14 ∧ 12 ≤ 12 := by decide
theorem test_wit_TcKeepsNegative : (0x2000#14).msb = true := by decide
theorem test_wit_TcRoundTrip : (-2048 : Int) ≤ -2048 ∧ (-2048 : Int) ≤ 2047 ∧ (0 : Int) ≤ 3 ∧ (3 : Int) ≤ 3 := by decide
theorem test_wit_RefRange : (-2048 : Int) ≤ 2047 ∧ (2047 : Int) ≤ 2047 ∧
    nextOf (exec (.refCelsius 0x7FF#12) State.reset) = some { State.reset with refC := some (BitVec.ofInt 16 2047) } := by
  decide
theorem test_wit_SameAtEveryWidth : Params.legal ⟨14, 0⟩ ∧ Params.legal ⟨64, 4⟩ := by decide
theorem test_wit_FlagsIndependent : (assemble ⟨0, 0, 0, 0x04⟩).getLsbD 2 = (assemble ⟨0xFF, 0xFF, 0xFF, 0xFC⟩).getLsbD 2 := by
  decide
theorem test_wit_HasFault : ((assemble ⟨0, 1, 0, 0⟩).getLsbD 16 = true ∧ extractU (assemble ⟨0, 1, 0, 0⟩) 2 0 = 0#3) ∧
    (assemble ⟨0, 0, 0, 7⟩).getLsbD 16 = false ∧ extractU (assemble ⟨0, 0, 0, 7⟩) 2 0 ≠ 0#3 := by decide
theorem test_wit_Consistency : frameConsistent (assemble ⟨0, 1, 0, 7⟩) ∧ ¬ frameConsistent (assemble ⟨0, 1, 0, 0⟩) := by
  unfold frameConsistent
  decide
theorem test_wit_ReadOnlyTheirFields :
    (∀ i, i < 32 → 18 ≤ i → (0x01900000#32).getLsbD i = (0x0193FFFF#32).getLsbD i) ∧
    (∀ i, i < 16 → 4 ≤ i → (0x00001900#32).getLsbD i = (0xFFFF190F#32).getLsbD i) ∧
    (∀ i, i < 3 → (0x00000005#32).getLsbD i = (0xFFFFFFFD#32).getLsbD i) ∧
    (0x00010000#32).getLsbD 16 = (0x00FD0000#32).getLsbD 16 := by decide
theorem test_wit_WriteOnlyTheirPorts : (∃ t, exec (.tcCelsius 1) State.reset = .next t) ∧
    (∃ t, exec (.refCelsius 1) State.reset = .next t) ∧ (∃ t, exec (.faultFlags true true true) State.reset = .next t) ∧
    ∃ t, exec (.hasFault true) State.reset = .next t := ⟨⟨_, rfl⟩, ⟨_, rfl⟩, ⟨_, rfl⟩, ⟨_, rfl⟩⟩
theorem test_wit_InputPresented : (State.reset.present ⟨1, 0x90, 0x19, 0⟩).input = some ⟨1, 0x90, 0x19, 0⟩ ∧
    ∃ is, decode [0x01, 0x90, 0x19, 0x00] = .ok is := ⟨rfl, _, rfl⟩
theorem test_wit_OrderOfOperations : (decodeFrame 0xFC1FE707#32).reverse.Perm (decodeFrame 0xFC1FE707#32) :=
  List.reverse_perm _
theorem test_wit_DependsOnInputAlone : (State.reset.present ⟨0, 0, 0, 7⟩).input =
    ((State.reset.present ⟨0, 0, 0, 7⟩).driveTcC 99).draw.input ∧
    (∃ t, step (State.reset.present ⟨0, 0, 0, 7⟩) = .next t) ∧ ∃ r, step State.reset = .fault r := ⟨rfl, ⟨_, rfl⟩, _, rfl⟩
theorem test_wit_StepAnswersNext : ∃ t, step (State.reset.present ⟨0xFF, 0xF0, 0xFF, 0xF0⟩) = .next t := ⟨_, rfl⟩
theorem test_wit_SensorFaults : tcField (assemble ⟨1, 0x90, 0x19, 0⟩) = tcField (assemble ⟨1, 0x91, 0x19, 7⟩) ∧
    refField (assemble ⟨1, 0x90, 0x19, 0⟩) = refField (assemble ⟨1, 0x91, 0x19, 7⟩) := by decide
theorem test_wit_ReservedBits : ∀ i, i < 32 → i ≠ 17 → i ≠ 3 →
    (assemble ⟨1, 0x92, 0x19, 8⟩).getLsbD i = (assemble ⟨1, 0x90, 0x19, 0⟩).getLsbD i := by decide
theorem test_wit_ReadUnsettled : (State.reset.present ⟨0, 0, 0, 7⟩).input.isSome = true ∧
    ∃ r, observe (State.reset.present ⟨0, 0, 0, 7⟩) = .next r := ⟨rfl, _, rfl⟩
theorem test_wit_PresentAnother : State.reset.input ≠ some ⟨0, 0, 0, 7⟩ ∧
    (State.reset.present ⟨0, 0, 0, 7⟩).input ≠ some ⟨0, 0, 0, 6⟩ := by decide
theorem test_wit_PresentKeepsInvariant : ∃ s : State, s.Inv ∧ s.input = some ⟨0x80, 0, 0x80, 0⟩ :=
  ⟨State.reset.present ⟨0x80, 0, 0x80, 0⟩, ⟨nofun, nofun, nofun, nofun, nofun⟩, rfl⟩
theorem test_wit_NoFrame : State.reset.input = none := rfl
theorem test_wit_StepKeepsInvariant : ∃ (s t : State), s.Inv ∧ step s = .next t :=
  ⟨State.reset.present ⟨0x80, 0, 0x80, 0⟩, _, ⟨nofun, nofun, nofun, nofun, nofun⟩, rfl⟩
theorem test_wit_ProgramLines : 1 < List.length [(⟨0, 1, 0, 1⟩ : InputPorts), ⟨0, 0, 0, 7⟩] ∧
    [(⟨0, 1, 0, 1⟩ : InputPorts), ⟨0, 0, 0, 7⟩][1]? = [(⟨0, 0, 0, 7⟩ : InputPorts)][0]? := ⟨by decide, rfl⟩
theorem test_wit_RoundTrip : FrameFields.wellFormed ⟨4 * 2047, -2048, true, true, true, false, false, true⟩ ∧
    FrameFields.wellFormed ⟨4 * (-2048), 2047, false, false, false, true, true, false⟩ := by decide
theorem test_wit_FetchWord : 32 ≤ 32 ∧ 0xFFFFFFFF < 2 ^ 32 ∧ 8 ≤ 32 ∧ 0 < 2 ^ 8 := by decide

end Sys2Proof.Tests
end

section
/-! PROOFS of the family 00_scope. The signed value of a field of the frame, and the temperatures at every legal
width. -/

namespace Sys2Proof

/-- The top bit of an extracted field is the frame's bit at the field's upper end (R43, R44). -/
theorem msb_extractU (f : Frame) {hi lo : Nat} (h : lo ≤ hi) : (extractU f hi lo).msb = f.getLsbD hi := by
  rw [BitVec.msb_eq_getLsbD_last, getLsbD_extractU, Nat.add_sub_cancel, Nat.add_sub_cancel' h]
  simp

/-- The two's-complement value of an extracted field is the rules' arithmetic on the frame (R58). -/
theorem toInt_extractU (f : Frame) {hi lo : Nat} (h : lo ≤ hi) : (extractU f hi lo).toInt = fieldValue f hi lo := by
  rw [BitVec.toInt_eq_msb_cond, msb_extractU f h, toNat_extractU, fieldValue]
  split <;> simp

/-- The thermocouple field's value (R45, R58). -/
theorem toInt_tcField (f : Frame) : (tcField f).toInt = fieldValue f 31 18 := toInt_extractU f (by decide)

/-- The reference field's value (R46, R58). -/
theorem toInt_refField (f : Frame) : (refField f).toInt = fieldValue f 15 4 := toInt_extractU f (by decide)

namespace Machine

/-- Inside its domain the temperature datapath has a value: the field's integer value over 2^s, rounded down, whatever
the width (R58, R59). -/
theorem exists_temperature {w s k : Nat} (hk : k ≤ w) (hs : s < w) (v : BitVec k) :
    ∃ t : BitVec w, temperature w s v = some t ∧ t.toInt = v.toInt.fdiv (2 ^ s) :=
  ⟨_, temperature_of_lt hk hs v, toInt_temperature hk v⟩

/-- Settles O28: every legal width holds both fields and exceeds both shifts, and the value that the datapath then
gives does not mention the width. -/
theorem temperaturesSameAtEveryWidth : Obligations.TemperaturesSameAtEveryWidth := by
  rintro c f ⟨hw, hshift⟩
  have hs : c.refShift < c.outW := by omega
  obtain ⟨v, hv, hvInt⟩ := exists_temperature hw (show 2 < c.outW by omega) (tcField f)
  obtain ⟨r, hr, hrInt⟩ := exists_temperature (show 12 ≤ c.outW by omega) hs (refField f)
  rw [toInt_tcField] at hvInt
  rw [toInt_refField] at hrInt
  exact ⟨v, r, hv, hvInt, hr, hrInt⟩

end Machine

end Sys2Proof
end

section
/-! PROOFS of the family 10_state. The frame and its bytes, the tuple of outputs of a frame, what an operation leaves
on the ports, and what a step answers. -/

namespace Sys2Proof

/-- Assembling the bytes of a frame gives the frame back (R22, R55). -/
@[simp] theorem assemble_portsOfFrame (f : Frame) : assemble (portsOfFrame f) = f := by
  refine BitVec.eq_of_getLsbD_eq fun i hi => ?_
  simp only [getLsbD_assemble, portsOfFrame, getLsbD_extractU]
  split_ifs with h8 h16 h24
  · simp [h8]
  · simp [show i - 8 < 8 by omega, show 8 + (i - 8) = i by omega]
  · simp [show i - 16 < 8 by omega, show 16 + (i - 16) = i by omega]
  · simp [show i - 24 < 8 by omega, show 24 + (i - 24) = i by omega]

/-- Each byte of an assembled frame is the byte of its port (R30). -/
@[simp] theorem portsOfFrame_assemble (p : InputPorts) : portsOfFrame (assemble p) = p := by
  obtain ⟨b0, b1, b2, b3⟩ := p
  rw [portsOfFrame, InputPorts.mk.injEq]
  refine ⟨?_, ?_, ?_, ?_⟩ <;> refine BitVec.eq_of_getLsbD_eq fun i hi => ?_ <;>
    simp only [getLsbD_extractU, getLsbD_assemble]
  · simp [hi, show ¬ 24 + i < 8 by omega, show ¬ 24 + i < 16 by omega]
  · simp [hi, show ¬ 16 + i < 8 by omega, show 16 + i < 24 by omega]
  · simp [hi, show 8 + i < 16 by omega]
  · simp [hi]

/-- Settles O4: splitting a frame and assembling its bytes are inverse to each other. -/
theorem portsAndFrameOneToOne : Obligations.PortsAndFrameOneToOne :=
  ⟨assemble_portsOfFrame, portsOfFrame_assemble⟩

/-- The operations the decoder reads from a frame are exactly those that their own ports carry of it (R52). -/
theorem mem_decodeFrame {f : Frame} {i : Instr} : i ∈ decodeFrame f ↔ i = decodeAt i.port f := by
  constructor
  · intro h
    simp only [decodeFrame, List.mem_cons, List.not_mem_nil, or_false] at h
    rcases h with rfl | rfl | rfl | rfl <;> rfl
  · intro h
    rw [h]
    cases i <;> simp [decodeFrame, Instr.port]

namespace Machine

/-- The tuple of outputs that the datapath gives for a frame (R27). -/
def Outputs.ofFrame (f : Frame) : Outputs where
  tcC := ((tcField f).signExtend 16).sshiftRight 2
  refC := (refField f).signExtend 16
  faults := packFaults (demux f).oc (demux f).scg (demux f).scv
  hasFault := (demux f).agg

/-- The datapath gives the outputs of the rules' arithmetic (R65, R68, R72, R74). -/
theorem Outputs.areOf_ofFrame (f : Frame) : (Outputs.ofFrame f).areOf f := by
  refine ⟨?tc, ?ref, ?flags, rfl⟩
  case tc =>
    calc (((tcField f).signExtend 16).sshiftRight 2).toInt
      _ = (tcField f).toInt.fdiv (2 ^ 2) := toInt_temperature (by decide) _
      _ = tcCelsiusOf f := by rw [toInt_tcField]; rfl
  case ref =>
    calc ((refField f).signExtend 16).toInt
      _ = (refField f).toInt := BitVec.toInt_signExtend_of_le (by decide)
      _ = refCelsiusOf f := toInt_refField f
  case flags =>
    obtain ⟨hoc, hscg, hscv⟩ := getLsbD_packFaults (demux f).oc (demux f).scg (demux f).scv
    intro i hi
    interval_cases i
    · exact hoc
    · exact hscg
    · exact hscv

/-- The ports carrying the outputs of the frame of `p`, with `n` free values drawn. -/
def State.settledOn (p : InputPorts) (n : Nat) : State where
  input := some p
  tcC := some (Outputs.ofFrame (assemble p)).tcC
  refC := some (Outputs.ofFrame (assemble p)).refC
  faults := some (Outputs.ofFrame (assemble p)).faults
  hasFault := some (Outputs.ofFrame (assemble p)).hasFault
  draws := n

/-- A step settles the ports on the frame presented (R27). -/
theorem step_of_input {s : State} {p : InputPorts} (h : s.input = some p) :
    step s = .next (State.settledOn p s.draws) := evaluate_eq h

/-- Without a frame a step faults (R91). -/
theorem step_of_no_input {s : State} (h : s.input = none) : step s = .fault .noFramePresented := evaluate_none h

/-- Settled ports show the outputs of their frame, and reading them draws no free value (R91). -/
theorem observe_settledOn (p : InputPorts) (n : Nat) :
    observe (State.settledOn p n) = .next (Outputs.ofFrame (assemble p), State.settledOn p n) :=
  observe_eq_next_self.mpr ⟨rfl, rfl, rfl, rfl, rfl⟩

/-- Settles O38: the step's answer and its observation are the datapath's outputs of the frame, and those are the
rules'. -/
theorem stepRefinesTheArithmetic : Obligations.StepRefinesTheArithmetic := fun s p h =>
  ⟨State.settledOn p s.draws, Outputs.ofFrame (assemble p), step_of_input h, observe_settledOn p s.draws,
    Outputs.areOf_ofFrame (assemble p), rfl⟩

/-- The state after an operation: its result on its own port, everything else as it was (R52). -/
def State.drive (s : State) : Instr → State
  | .tcCelsius tc => s.driveTcC ((tc.signExtend 16).sshiftRight 2)
  | .refCelsius ref => s.driveRefC (ref.signExtend 16)
  | .faultFlags oc scg scv => s.driveFaults (packFaults oc scg scv)
  | .hasFault fault => s.driveHasFault fault

/-- Every operation goes on, and drives its own port. -/
theorem exec_eq (i : Instr) (s : State) : exec i s = .next (s.drive i) := by
  cases i with
  | tcCelsius tc => exact execTcCelsius_eq tc s
  | refCelsius ref => exact execRefCelsius_eq ref s
  | faultFlags oc scg scv => rfl
  | hasFault fault => rfl

/-- Every list of operations goes on, each driving its port in turn. -/
theorem execAll_eq (l : List Instr) (s : State) : execAll l s = .next (l.foldl State.drive s) := by
  induction l generalizing s with
  | nil => rfl
  | cons i is ih => rw [execAll, exec_eq, andThen_next, ih, List.foldl_cons]

/-- Operations on different ports may be exchanged (R24). -/
theorem State.drive_comm {i j : Instr} (h : i.port ≠ j.port) (s : State) :
    (s.drive i).drive j = (s.drive j).drive i := by
  cases i <;> cases j
  case tcCelsius.tcCelsius | refCelsius.refCelsius | faultFlags.faultFlags | hasFault.hasFault => exact absurd rfl h
  all_goals rfl

/-- Two operations of one frame may be exchanged: on one port they are the same operation. -/
theorem State.drive_comm_of_mem {f : Frame} {i j : Instr} (hi : i ∈ decodeFrame f) (hj : j ∈ decodeFrame f)
    (s : State) : (s.drive i).drive j = (s.drive j).drive i := by
  rcases eq_or_ne i.port j.port with h | h
  · rw [mem_decodeFrame.mp hi, mem_decodeFrame.mp hj, h]
  · exact State.drive_comm h s

/-- Settles O37: the operations of a frame may be exchanged two at a time, and so be permuted. -/
theorem orderOfOperationsIsImmaterial : Obligations.OrderOfOperationsIsImmaterial := by
  intro f s l hl
  have hfold : l.foldl State.drive s = (decodeFrame f).foldl State.drive s :=
    hl.foldl_eq' (fun i hi j hj u => State.drive_comm_of_mem (hl.subset hi) (hl.subset hj) u) s
  exact ⟨_, execAll_eq l s, by rw [execAll_eq, hfold]⟩

/-- A step runs the decoder's list for the frame presented (R24). -/
theorem step_eq_execAll {s : State} {p : InputPorts} (h : s.input = some p) :
    step s = execAll (decodeFrame (assemble p)) s := by
  rw [step, evaluate, fetchFrame_eq_next.mpr ⟨p, h, rfl⟩, andThen_next]

/-- Settles O35: the decoder's answer is the list that the step runs, and each port of the settled state is what its
operation alone drives there. -/
theorem stepRunsTheDecodedOperations : Obligations.StepRunsTheDecodedOperations := by
  intro s p h
  refine ⟨?_, fun i is t => ⟨rfl, rfl⟩, ?_⟩
  · intro is his
    obtain rfl : decodeFrame (assemble p) = is := Except.ok.inj his
    exact ⟨step_eq_execAll h, rfl⟩
  · exact ⟨_, _, _, _, _, step_of_input h, exec_eq _ s, rfl, exec_eq _ s, rfl, exec_eq _ s, rfl, exec_eq _ s, rfl⟩

/-- Settles O39: a step faults without a frame, and otherwise settles the ports on the frame whatever they carried. -/
theorem stepDependsOnInputAlone : Obligations.StepDependsOnInputAlone := by
  intro s s' h
  cases hs' : s'.input with
  | none =>
    rw [hs'] at h
    rw [step_of_no_input h, step_of_no_input hs', step_of_no_input (s := { s with draws := s'.draws }) h]
    exact ⟨rfl, nofun, fun _ hr => hr⟩
  | some p =>
    rw [hs'] at h
    rw [step_of_input h, step_of_input hs', step_of_input (s := { s with draws := s'.draws }) h]
    refine ⟨rfl, ?_, nofun⟩
    rintro t ⟨⟩
    exact ⟨rfl, rfl⟩

end Machine

end Sys2Proof
end

section
/-! PROOFS of the family 20_memory. The frame's bytes and fields, and an evaluation that changes nothing but the
outputs. -/

namespace Sys2Proof

/-- Settles O1: the bytes of an assembled frame, in buffer order, are those it was assembled from. -/
theorem frameIsBigEndian : Obligations.FrameIsBigEndian := fun p => by
  have h : portsOfFrame (assemble p) = p := portsOfFrame_assemble p
  exact ⟨congrArg InputPorts.b0 h, congrArg InputPorts.b1 h, congrArg InputPorts.b2 h, congrArg InputPorts.b3 h⟩

/-- A byte widened to 32 bits and moved up by `k` fills the eight bits from `k` up, and is zero elsewhere (R31). -/
theorem getLsbD_setWidth_shiftLeft (b : Byte) {k i : Nat} (hi : i < 32) :
    (b.setWidth 32 <<< k).getLsbD i = (decide (k ≤ i ∧ i < k + 8) && b.getLsbD (i - k)) := by
  rw [BitVec.getLsbD_shiftLeft, BitVec.getLsbD_setWidth]
  by_cases hk : k ≤ i
  · by_cases h8 : i < k + 8
    · simp [hi, hk, h8, show i - k < 32 by omega]
    · simp [h8, BitVec.getLsbD_of_ge b (i - k) (by omega)]
  · simp [hk, show i < k by omega]

/-- Settles O3: in each byte of the frame one operand of the OR carries its byte and the other three are zero there. -/
theorem assembleIsShiftAndOr : Obligations.AssembleIsShiftAndOr := by
  intro p
  rw [← BitVec.shiftLeft_zero (p.b3.setWidth 32)]
  refine BitVec.eq_of_getLsbD_eq fun i hi => ?_
  rw [getLsbD_assemble]
  simp only [BitVec.getLsbD_or, getLsbD_setWidth_shiftLeft _ hi]
  split_ifs with h8 h16 h24
  · simp [h8, show ¬ 24 ≤ i by omega, show ¬ 16 ≤ i by omega, show ¬ 8 ≤ i by omega]
  · simp [h8, h16, show ¬ 24 ≤ i by omega, show ¬ 16 ≤ i by omega, show 8 ≤ i by omega]
  · simp [h8, h16, h24, show ¬ 24 ≤ i by omega, show 16 ≤ i by omega]
  · simp [hi, h8, h16, h24, show 24 ≤ i by omega]

/-- A bit of the thermocouple field is the frame's bit 18 places up (R42). -/
theorem getLsbD_tcField (f : Frame) {i : Nat} (hi : i < 14) : (tcField f).getLsbD i = f.getLsbD (18 + i) :=
  (getLsbD_extractU f 31 18 i).trans (by simp [hi])

/-- A bit of the reference field is the frame's bit 4 places up (R42). -/
theorem getLsbD_refField (f : Frame) {i : Nat} (hi : i < 12) : (refField f).getLsbD i = f.getLsbD (4 + i) :=
  (getLsbD_extractU f 15 4 i).trans (by simp [hi])

/-- The thermocouple field is byte0 over the upper six bits of byte1 (R33). -/
theorem tcField_assemble (p : InputPorts) : tcField (assemble p) = p.b0 ++ p.b1.extractLsb 7 2 := by
  refine BitVec.eq_of_getLsbD_eq fun i hi => ?_
  rw [getLsbD_tcField _ hi, getLsbD_assemble, BitVec.getLsbD_append, BitVec.getLsbD_extractLsb]
  by_cases h : i < 6
  · simp [h, show ¬ 18 + i < 8 by omega, show ¬ 18 + i < 16 by omega, show 18 + i < 24 by omega,
      show 18 + i - 16 = 2 + i by omega]
  · simp [h, show ¬ 18 + i < 8 by omega, show ¬ 18 + i < 16 by omega, show ¬ 18 + i < 24 by omega,
      show 18 + i - 24 = i - 6 by omega]

/-- The reference field is byte2 over the upper four bits of byte3 (R33). -/
theorem refField_assemble (p : InputPorts) : refField (assemble p) = p.b2 ++ p.b3.extractLsb 7 4 := by
  refine BitVec.eq_of_getLsbD_eq fun i hi => ?_
  rw [getLsbD_refField _ hi, getLsbD_assemble, BitVec.getLsbD_append, BitVec.getLsbD_extractLsb]
  by_cases h : i < 4
  · simp [h, show 4 + i < 8 by omega]
  · simp [h, show ¬ 4 + i < 8 by omega, show 4 + i < 16 by omega, show 4 + i - 8 = i - 4 by omega]

/-- Settles O5: the two fields that span two bytes, and the six single bits read off the frame's bits by byte. -/
theorem fieldsLieInTheirBytes : Obligations.FieldsLieInTheirBytes := fun p =>
  ⟨tcField_assemble p, getLsbD_assemble p 17, getLsbD_assemble p 16, refField_assemble p, getLsbD_assemble p 3,
    getLsbD_assemble p 2, getLsbD_assemble p 1, getLsbD_assemble p 0⟩

namespace Machine

/-- Settles O40: a step that goes on settles the ports on the frame it found there, and stepping settled ports gives
them again. -/
theorem evaluationHasNoSideEffect : Obligations.EvaluationHasNoSideEffect := by
  intro s t h
  cases hs : s.input with
  | none =>
    rw [step_of_no_input hs] at h
    cases h
  | some p =>
    rw [step_of_input hs] at h
    obtain rfl : State.settledOn p s.draws = t := Host.Outcome.next.inj h
    exact ⟨rfl, step_of_input rfl⟩

end Machine

end Sys2Proof
end

section
/-! PROOFS of the family 30_encoding. Where each field lies in a built frame, what an operation encoded into a frame
leaves alone, and the machine's answer on such frames. -/

namespace Sys2Proof

/-! ### Building a frame from its eight fields (R42, R54) -/

/-- Each bit of a built frame is a bit of the one field that R42 places there. -/
theorem getLsbD_encode (a : FrameFields) {i : Nat} (hi : i < 32) :
    a.encode.getLsbD i =
      if i = 0 then a.oc else if i = 1 then a.scg else if i = 2 then a.scv else if i = 3 then a.rsv3
      else if i < 16 then (BitVec.ofInt 12 a.r).getLsbD (i - 4) else if i = 16 then a.fault
      else if i = 17 then a.rsv17 else (BitVec.ofInt 14 a.q).getLsbD (i - 18) := by
  simp only [FrameFields.encode, BitVec.getLsbD_append, getLsbD_bit]
  rcases i with _ | _ | _ | _ | i
  · simp
  · simp
  · simp
  · simp
  · rcases Nat.lt_trichotomy i 12 with h | rfl | h
    · simp [h, show i + 4 < 16 by omega]
    · simp
    · rcases Nat.eq_or_lt_of_le h with rfl | h'
      · simp
      · simp [show ¬ i < 12 by omega, show ¬ i + 4 < 16 by omega, show i ≠ 12 by omega, show i ≠ 13 by omega,
          show ¬ i - 12 < 1 by omega, show ¬ i - 12 - 1 < 1 by omega, show i - 12 - 1 - 1 = i + 4 - 18 by omega]

/-- The thermocouple field of a built frame holds the low 14 bits of q. -/
theorem tcField_encode (a : FrameFields) : tcField a.encode = BitVec.ofInt 14 a.q := by
  refine BitVec.eq_of_getLsbD_eq fun i hi => ?_
  rw [getLsbD_tcField _ hi, getLsbD_encode a (by omega)]
  simp [show ¬ 18 + i = 1 by omega, show ¬ 18 + i = 2 by omega,
    show ¬ 18 + i = 3 by omega, show ¬ 18 + i < 16 by omega, show ¬ 18 + i = 16 by omega, show ¬ 18 + i = 17 by omega]

/-- The reference field of a built frame holds the low 12 bits of r. -/
theorem refField_encode (a : FrameFields) : refField a.encode = BitVec.ofInt 12 a.r := by
  refine BitVec.eq_of_getLsbD_eq fun i hi => ?_
  rw [getLsbD_refField _ hi, getLsbD_encode a (by omega)]
  simp [show ¬ 4 + i = 1 by omega, show ¬ 4 + i = 2 by omega,
    show ¬ 4 + i = 3 by omega, show 4 + i < 16 by omega]

/-- Settles O7: both signed fields are in the range of their width, so their bits keep the value, and the single bits
stand where they are read. -/
theorem decodeOfBuiltFrame : Obligations.DecodeOfBuiltFrame := by
  rintro a ⟨hq, hq', hr, hr'⟩
  have hqInt : (tcField a.encode).toInt = a.q := by
    rw [tcField_encode]
    exact BitVec.toInt_ofInt_eq_self (by decide) hq (by omega)
  have hrInt : (refField a.encode).toInt = a.r := by
    rw [refField_encode]
    exact BitVec.toInt_ofInt_eq_self (by decide) hr (by omega)
  have hbit : ∀ i, i < 32 → frameBit a.encode i = _ := fun i => getLsbD_encode a
  rw [fieldsOf, hqInt, hrInt]
  simp [demux, hbit]

/-- Two's complement keeps the signed fields of a frame in the ranges of R54. -/
theorem fieldsOf_wellFormed (f : Frame) : (fieldsOf f).wellFormed := by
  have hq := BitVec.le_toInt (tcField f)
  have hq' := BitVec.toInt_lt (x := tcField f)
  have hr := BitVec.le_toInt (refField f)
  have hr' := BitVec.toInt_lt (x := refField f)
  refine ⟨hq, ?_, hr, ?_⟩ <;> simp only [fieldsOf] <;> omega

/-- No bit of a frame lies outside the eight fields. -/
theorem encode_fieldsOf (f : Frame) : (fieldsOf f).encode = f := by
  refine BitVec.eq_of_getLsbD_eq fun i hi => ?_
  rw [getLsbD_encode _ hi]
  simp only [fieldsOf, BitVec.ofInt_toInt, demux, frameBit]
  split_ifs with h0 h1 h2 h3 h16 h16' h17
  · rw [h0]
  · rw [h1]
  · rw [h2]
  · rw [h3]
  · rw [getLsbD_refField _ (by omega), Nat.add_sub_cancel' (by omega)]
  · rw [h16']
  · rw [h17]
  · rw [getLsbD_tcField _ (by omega), Nat.add_sub_cancel' (by omega)]

/-- Settles O8: a frame's field values are in range, and each of its bits is rebuilt from the field it lies in. -/
theorem fieldsRebuildTheFrame : Obligations.FieldsRebuildTheFrame := fun f =>
  ⟨fieldsOf_wellFormed f, encode_fieldsOf f⟩

/-! ### Encoding one operation into a frame (R51, R52) -/

/-- The decoder reads a frame's own four bytes as that frame. -/
@[simp] theorem decode_bytesOfFrame (f : Frame) : decode (bytesOfFrame f) = .ok (decodeFrame f) :=
  congrArg (fun g => Except.ok (decodeFrame g)) (assemble_portsOfFrame f)

/-- An operation encoded into a frame is the one its port reads there. -/
theorem decodeAt_encodeInto (base : Frame) (i : Instr) : decodeAt i.port (encodeInto base i) = i := by
  cases i with
  | tcCelsius tc =>
    refine congrArg Instr.tcCelsius (BitVec.eq_of_getLsbD_eq fun j hj => ?_)
    rw [getLsbD_tcField _ hj, getLsbD_encodeInto_tcCelsius _ _ (by omega)]
    simp
  | refCelsius ref =>
    refine congrArg Instr.refCelsius (BitVec.eq_of_getLsbD_eq fun j hj => ?_)
    rw [getLsbD_refField _ hj, getLsbD_encodeInto_refCelsius _ _ (by omega)]
    simp [show 4 + j < 16 by omega]
  | faultFlags oc scg scv =>
    have hbit : ∀ j, j < 32 → frameBit (encodeInto base (.faultFlags oc scg scv)) j = _ := fun j =>
      getLsbD_encodeInto_faultFlags base oc scg scv
    simp [decodeAt, Instr.port, demux, hbit]
  | hasFault fault =>
    exact congrArg Instr.hasFault (getLsbD_encodeInto_hasFault base fault (by decide))

/-- Settles O9: the operation's own port reads it back, and the decoder's answer holds what every port reads. -/
theorem decodeOfEncodedOperation : Obligations.DecodeOfEncodedOperation := fun base i =>
  ⟨decodeAt_encodeInto base i, decodeFrame (encodeInto base i), decode_bytesOfFrame _,
    mem_decodeFrame.mpr (decodeAt_encodeInto base i).symm⟩

/-- What a port reads depends on the bits of its own mask only (R71). -/
theorem decodeAt_congr {port : Port} {f g : Frame}
    (h : ∀ i, i < 32 → (operandMask port).getLsbD i = true → f.getLsbD i = g.getLsbD i) :
    decodeAt port f = decodeAt port g := by
  cases port with
  | tcC =>
    refine congrArg Instr.tcCelsius (BitVec.eq_of_getLsbD_eq fun i hi => ?_)
    rw [getLsbD_tcField _ hi, getLsbD_tcField _ hi]
    exact h _ (by omega) (by simp [getLsbD_operandMask .tcC (show 18 + i < 32 by omega)])
  | refC =>
    refine congrArg Instr.refCelsius (BitVec.eq_of_getLsbD_eq fun i hi => ?_)
    rw [getLsbD_refField _ hi, getLsbD_refField _ hi]
    exact h _ (by omega) (by simp [getLsbD_operandMask .refC (show 4 + i < 32 by omega)]; omega)
  | faults =>
    simp only [decodeAt, demux, frameBit, h 0 (by decide) rfl, h 1 (by decide) rfl, h 2 (by decide) rfl]
  | hasFault =>
    simp only [decodeAt, demux, frameBit, h 16 (by decide) rfl]

/-- Encoding an operation keeps every bit outside the operation's mask. -/
theorem getLsbD_encodeInto_of_not_mask (base : Frame) {i : Instr} {j : Nat} (hj : j < 32)
    (h : (operandMask i.port).getLsbD j = false) : (encodeInto base i).getLsbD j = base.getLsbD j := by
  rw [getLsbD_operandMask _ hj] at h
  cases i with
  | tcCelsius tc =>
    rw [getLsbD_encodeInto_tcCelsius _ _ hj, if_neg (of_decide_eq_false h)]
  | refCelsius ref =>
    rw [getLsbD_encodeInto_refCelsius _ _ hj, if_neg (of_decide_eq_false h)]
  | faultFlags oc scg scv =>
    have h3 : ¬ j < 3 := of_decide_eq_false h
    rw [getLsbD_encodeInto_faultFlags _ _ _ _ hj, if_neg (by omega), if_neg (by omega), if_neg (by omega)]
  | hasFault fault =>
    rw [getLsbD_encodeInto_hasFault _ _ hj, if_neg (of_decide_eq_false h)]

/-- The masks of two ports are disjoint (R42). -/
theorem operandMask_and_of_ne {port port' : Port} (hne : port ≠ port') :
    operandMask port &&& operandMask port' = 0#32 := by
  revert hne
  cases port <;> cases port' <;> decide

/-- A bit of one port's mask is no bit of another's. -/
theorem getLsbD_operandMask_of_ne {port port' : Port} (hne : port ≠ port') {i : Nat}
    (h : (operandMask port).getLsbD i = true) : (operandMask port').getLsbD i = false := by
  have hand : (operandMask port &&& operandMask port').getLsbD i = false := by
    rw [operandMask_and_of_ne hne, BitVec.getLsbD_zero]
  rwa [BitVec.getLsbD_and, h, Bool.true_and] at hand

/-- No port's mask holds a reserved bit (R48). -/
theorem operandMask_reserved (port : Port) :
    (operandMask port).getLsbD 17 = false ∧ (operandMask port).getLsbD 3 = false := by
  cases port <;> decide

/-- Settles O10: another port's mask and the reserved bits lie outside the operation's mask, where encoding keeps the
base frame. -/
theorem encodingLeavesOtherFields : Obligations.EncodingLeavesOtherFields := by
  intro base i
  obtain ⟨h17, h3⟩ := operandMask_reserved i.port
  refine ⟨fun port hne => decodeAt_congr fun j hj hmask => ?_, ?_, ?_⟩
  · exact getLsbD_encodeInto_of_not_mask base hj (getLsbD_operandMask_of_ne hne hmask)
  · exact getLsbD_encodeInto_of_not_mask base (by decide) h17
  · exact getLsbD_encodeInto_of_not_mask base (by decide) h3

/-! ### Signs of the temperatures (R43, R44) -/

/-- A signed field is negative exactly when its top bit is 1 (R58). -/
theorem fieldValue_neg_iff (f : Frame) {hi lo : Nat} (h : lo ≤ hi) :
    fieldValue f hi lo < 0 ↔ f.getLsbD hi = true := by
  rw [← toInt_extractU f h, ← msb_extractU f h, BitVec.msb_eq_toInt, decide_eq_true_iff]

/-- Rounding quarter degrees down to whole ones keeps the sign (R65). -/
theorem tcCelsiusOf_neg_iff (f : Frame) : tcCelsiusOf f < 0 ↔ f.getLsbD 31 = true := by
  rw [← fieldValue_neg_iff f (show 18 ≤ 31 by decide), tcCelsiusOf, Int.fdiv_eq_ediv_of_nonneg _ (by decide)]
  omega

namespace Machine

/-- Presenting a frame and stepping settles the ports on it. -/
theorem step_present (p : InputPorts) (s : State) : step (s.present p) = .next (State.settledOn p s.draws) := by
  rw [step_of_input (s.present_input p), State.present_draws]

/-- Ports settled on the bytes of a frame show that frame's outputs. -/
theorem observe_settledOn_portsOfFrame (f : Frame) (n : Nat) :
    observe (State.settledOn (portsOfFrame f) n) = .next (Outputs.ofFrame f, State.settledOn (portsOfFrame f) n) := by
  rw [observe_settledOn, assemble_portsOfFrame]

/-- Settles O27: both temperatures are the rules' values, whose signs are the fields' top bits. -/
theorem signBitsOfTemperatures : Obligations.SignBitsOfTemperatures := by
  intro p s
  obtain ⟨htc, href, -, -⟩ := Outputs.areOf_ofFrame (assemble p)
  refine ⟨_, _, _, step_present p s, rfl, rfl, ?_, ?_, getLsbD_assemble p 31, getLsbD_assemble p 15⟩
  · rw [htc, tcCelsiusOf_neg_iff]
  · rw [href, refCelsiusOf, fieldValue_neg_iff _ (by decide)]

/-- Settles O34: the next state is the one with the operation's own port driven. -/
theorem operationsWriteOnlyTheirPorts : Obligations.OperationsWriteOnlyTheirPorts := by
  intro i s t h
  rw [exec_eq, Host.Outcome.next.injEq] at h
  subst h
  cases i <;> simp [State.drive, Instr.port]

/-- Settles O36: every operation drives its port, and every frame settles all four ports. -/
theorem everyFrameIsLegal : Obligations.EveryFrameIsLegal :=
  ⟨fun i s => ⟨s.drive i, exec_eq i s⟩,
    fun f s => ⟨_, _, step_present (portsOfFrame f) s, observe_settledOn_portsOfFrame f s.draws⟩⟩

/-- The outputs of a frame depend on what the four ports read of it alone (R52). -/
theorem Outputs.ofFrame_congr {f g : Frame} (h : ∀ port, decodeAt port f = decodeAt port g) :
    Outputs.ofFrame f = Outputs.ofFrame g := by
  have htc : tcField f = tcField g := Instr.tcCelsius.inj (h .tcC)
  have href : refField f = refField g := Instr.refCelsius.inj (h .refC)
  obtain ⟨hoc, hscg, hscv⟩ := Instr.faultFlags.inj (h .faults)
  have hagg : (demux f).agg = (demux g).agg := Instr.hasFault.inj (h .hasFault)
  rw [ofFrame, ofFrame, htc, href, hoc, hscg, hscv, hagg]

/-- Settles O43: no port's mask holds a reserved bit, so all four ports read the two frames alike. -/
theorem reservedBitsAreIgnored : Obligations.ReservedBitsAreIgnored := by
  intro p q s h
  have hports : ∀ port, decodeAt port (assemble p) = decodeAt port (assemble q) := by
    refine fun port => decodeAt_congr fun i hi hmask => ?_
    obtain ⟨h17, h3⟩ := operandMask_reserved port
    refine h i hi ?_ ?_
    · rintro rfl
      rw [h17] at hmask
      cases hmask
    · rintro rfl
      rw [h3] at hmask
      cases hmask
  refine ⟨_, _, _, step_present p s, step_present q s, observe_settledOn p s.draws, ?_⟩
  rw [Outputs.ofFrame_congr hports]
  exact observe_settledOn q s.draws

/-- Settles O51: the step gives the rules' outputs of the built frame, and that frame's fields are the ones it was
built from. -/
theorem roundTripThroughTheMachine : Obligations.RoundTripThroughTheMachine := by
  intro a c s ha hc
  have hfields : fieldsOf a.encode = a := decodeOfBuiltFrame a ha
  obtain ⟨htc, href, hflags, hfault⟩ := Outputs.areOf_ofFrame a.encode
  have hc' : (Outputs.ofFrame a.encode).tcC.toInt = c := by
    have hq : (tcField a.encode).toInt = 4 * c := (congrArg FrameFields.q hfields).trans hc
    rw [htc, tcCelsiusOf, ← toInt_tcField, hq, Int.mul_fdiv_cancel_left _ (by decide)]
  have hr : (Outputs.ofFrame a.encode).refC.toInt = a.r := by
    rw [href, refCelsiusOf, ← toInt_refField]
    exact congrArg FrameFields.r hfields
  refine ⟨_, _, step_present _ s, observe_settledOn_portsOfFrame a.encode s.draws, ?_, hc', hr, ?_, ?_, ?_, ?_⟩
  · rw [← hc', BitVec.ofInt_toInt]
  · exact (hflags 0 (by decide)).trans (congrArg FrameFields.oc hfields)
  · exact (hflags 1 (by decide)).trans (congrArg FrameFields.scg hfields)
  · exact (hflags 2 (by decide)).trans (congrArg FrameFields.scv hfields)
  · exact hfault.trans (congrArg FrameFields.fault hfields)

end Machine

/-! ### Table words (log entries 4 and 5) -/

/-- A word that its bits hold is the frame of its own number. -/
theorem frameOfTableWord_of_lt {nbits w : Nat} (hn : nbits ≤ 32) (hw : w < 2 ^ nbits) :
    frameOfTableWord nbits w = some (BitVec.ofNat 32 w) := by
  rw [frameOfTableWord, if_pos hn, Nat.mod_eq_of_lt hw]

namespace Machine

/-- Settles O52: placing the word presents the frame of its number, which the step settles and the table decoder
reads from that frame's bytes. -/
theorem fetchWordIsTheNextFrame : Obligations.FetchWordIsTheNextFrame := by
  intro nbits w s hn hw
  have hword := frameOfTableWord_of_lt hn hw
  have hplace : s.withFetchWord nbits w = s.present (portsOfFrame (BitVec.ofNat 32 w)) := by
    simp [State.withFetchWord, presentTableWord, hword]
  have hw32 : w < 2 ^ 32 := hw.trans_le (Nat.pow_le_pow_right (by decide) hn)
  rw [hplace]
  refine ⟨_, _, _, s.present_input _, ?_, step_present _ s, observe_settledOn_portsOfFrame _ s.draws,
    Outputs.areOf_ofFrame _, ?_⟩
  · rw [assemble_portsOfFrame, BitVec.toNat_ofNat, Nat.mod_eq_of_lt hw32]
  · simp [decodeTableWord, hword, decodeFrame]

end Machine

end Sys2Proof
end

section
/-! PROOFS of the family 40_primitives. The bits and the integer value of each datapath primitive at every width, and
the fault bits routed to the ports. -/

namespace Sys2Proof

/-- Appending a byte at the low end moves the rest up by its eight bits. -/
theorem toNat_append_byte {n : Nat} (x : BitVec n) (b : Byte) : (x ++ b).toNat = 2 ^ 8 * x.toNat + b.toNat := by
  rw [BitVec.toNat_append, ← Nat.shiftLeft_add_eq_or_of_lt b.isLt, Nat.shiftLeft_eq, Nat.mul_comm]

/-- Settles O2: each append of a byte multiplies the number so far by 2^8. -/
theorem assembleWeighsBytes : Obligations.AssembleWeighsBytes := by
  refine ⟨fun p => ⟨rfl, ?_⟩, by decide⟩
  rw [assemble, toNat_append_byte, toNat_append_byte, toNat_append_byte]
  omega

/-- Settles O12: the slice bit by bit and as a number, which for a single bit is that bit. -/
theorem extractUnsignedIsSlice : Obligations.ExtractUnsignedIsSlice := by
  refine ⟨fun f hi lo hle h31 => ⟨fun i hi' => ?_, toNat_extractU f hi lo⟩, fun f i _ => ?_, by decide⟩
  · rw [getLsbD_extractU, decide_eq_true (Nat.lt_succ_of_le hi'), Bool.true_and]
  · rw [toNat_extractU, Nat.sub_self, Nat.zero_add, pow_one, ← BitVec.testBit_toNat, Nat.toNat_testBit]

/-- A field of ones has the value −1 (R57). -/
theorem toInt_of_toNat_eq_ones {n : Nat} {x : BitVec (n + 1)} (h : x.toNat = 2 ^ (n + 1) - 1) : x.toInt = -1 := by
  rw [BitVec.eq_of_toNat_eq (h.trans BitVec.toNat_allOnes.symm), BitVec.toInt_allOnes, if_pos n.succ_pos]

/-- A field with its top bit alone has the least value of its width (R57). -/
theorem toInt_of_toNat_eq_top {n : Nat} {x : BitVec (n + 1)} (h : x.toNat = 2 ^ n) : x.toInt = -2 ^ n := by
  rw [BitVec.toInt_eq_toNat_cond, h, pow_succ, if_neg (by omega)]
  push_cast
  ring

/-- A bit of the sign-extended field is the frame's bit at its offset, and from the field's upper end on the one
there (R57). -/
theorem getLsbD_signExtend_extractU (f : Frame) {hi lo w i : Nat} (h : lo ≤ hi) (hi' : i < w) :
    ((extractU f hi lo).signExtend w).getLsbD i = f.getLsbD (min (lo + i) hi) := by
  rw [BitVec.getLsbD_signExtend, getLsbD_extractU, msb_extractU f h, decide_eq_true hi', Bool.true_and]
  by_cases hlt : i < hi - lo + 1
  · rw [if_pos hlt, decide_eq_true hlt, Bool.true_and, min_eq_left (by omega)]
  · rw [if_neg hlt, min_eq_right (by omega)]

/-- A bit of an arithmetic shift is the operand's bit `s` places up, and past its top bit that top bit (R59). -/
theorem getLsbD_sshiftRight_eq {w i : Nat} (v : BitVec w) (s : Nat) (hi : i < w) :
    (v.sshiftRight s).getLsbD i = v.getLsbD (min (s + i) (w - 1)) := by
  rw [BitVec.getLsbD_sshiftRight, BitVec.msb_eq_getLsbD_last, decide_eq_false (Nat.not_le.mpr hi), Bool.not_false,
    Bool.true_and]
  split
  · rw [min_eq_left (by omega)]
  · rw [min_eq_right (by omega)]

/-- A word is negative exactly when its top bit is 1. -/
theorem toInt_neg_iff {w : Nat} {v : BitVec w} : v.toInt < 0 ↔ v.msb = true := by
  rw [BitVec.msb_eq_toInt, decide_eq_true_iff]

/-- Built frames carry their single fault bits to the demultiplexer (R42, R62). -/
theorem demux_encode (a : FrameFields) : demux a.encode = ⟨a.oc, a.scg, a.scv, a.fault⟩ := by
  rw [demux, frameBit, frameBit, frameBit, frameBit, getLsbD_encode a (by decide), getLsbD_encode a (by decide),
    getLsbD_encode a (by decide), getLsbD_encode a (by decide)]
  rfl

namespace Machine

/-- A value of the signed extract is that of the field itself, whatever the width (R58). -/
theorem toInt_of_extractS {w hi lo : Nat} {f : Frame} {v : BitVec w} (h : extractS w f hi lo = some v) :
    v.toInt = (extractU f hi lo).toInt := by
  obtain ⟨hle, h31, hk⟩ := domain_of_extractS h
  rw [extractS_of_le hle h31 hk, Option.some.injEq] at h
  rw [← h, BitVec.toInt_signExtend_of_le hk]

/-- ASR gives a value only inside its domain (R61). -/
theorem lt_of_asr {w s : Nat} {v r : BitVec w} (h : asr v s = some r) : s < w := by
  by_contra hge
  rw [asr_of_ge (Nat.not_lt.mp hge)] at h
  cases h

/-- A value of ASR is the operand's over 2^s, rounded down (R59). -/
theorem toInt_of_asr {w s : Nat} {v r : BitVec w} (h : asr v s = some r) : r.toInt = v.toInt.fdiv (2 ^ s) := by
  rw [asr_of_lt (lt_of_asr h), Option.some.injEq] at h
  rw [← h, ← toInt_temperature le_rfl, BitVec.signExtend_eq]

/-- Settles O13: the bits of the sign-extended field, and the two extreme fields, whose value no width changes. -/
theorem extractSignedCopiesTopBit : Obligations.ExtractSignedCopiesTopBit := by
  refine ⟨fun w f hi lo hle h31 hk => ?_, by decide⟩
  have hv := extractS_of_le hle h31 hk f
  refine ⟨_, hv, fun i hi' => ?low, fun i hi' hw => ?high, fun h => ?ones, fun h => ?top, ?same⟩
  case low => rw [getLsbD_signExtend_extractU f hle (by omega), min_eq_left (by omega)]
  case high => rw [getLsbD_signExtend_extractU f hle hw, min_eq_right (by omega)]
  case ones => rw [toInt_of_extractS hv, toInt_of_toNat_eq_ones h]
  case top => rw [toInt_of_extractS hv, toInt_of_toNat_eq_top h]
  case same =>
    rintro rfl
    rw [BitVec.signExtend_eq]

/-- Settles O14: a value would put the bounds and the width inside the domain, where every legal width lies. -/
theorem narrowExtractGivesNoValue : Obligations.NarrowExtractGivesNoValue := by
  refine ⟨fun w f hi lo hw => ?_, fun w f hi lo hbad => ?_, ?_⟩
  · refine Option.eq_none_iff_forall_ne_some.mpr fun v hv => ?_
    obtain ⟨-, -, hk⟩ := domain_of_extractS hv
    omega
  · refine Option.eq_none_iff_forall_ne_some.mpr fun v hv => ?_
    obtain ⟨hle, h31, -⟩ := domain_of_extractS hv
    omega
  · rintro c f ⟨hw, -⟩
    rw [extractS_of_le (by decide) (by decide) hw, extractS_of_le (by decide) (by decide) (show 12 ≤ c.outW by omega)]
    exact ⟨rfl, rfl⟩

/-- Settles O15: the value is the field's own, and two's complement bounds that by the field's width. -/
theorem signedFieldValueAtEveryWidth : Obligations.SignedFieldValueAtEveryWidth := by
  refine ⟨fun w f hi lo hle h31 hk => ?_, fun w f v hv => ?_, fun w f v hv => ?_⟩
  · have hv := extractS_of_le hle h31 hk f
    refine ⟨_, hv, ?_⟩
    rw [toInt_of_extractS hv, toInt_extractU f hle, fieldValue, toNat_extractU]
  · rw [toInt_of_extractS hv]
    exact ⟨BitVec.le_toInt (extractU f 31 18), Int.le_of_lt_add_one (BitVec.toInt_lt (x := extractU f 31 18))⟩
  · rw [toInt_of_extractS hv]
    exact ⟨BitVec.le_toInt (extractU f 15 4), Int.le_of_lt_add_one (BitVec.toInt_lt (x := extractU f 15 4))⟩

/-- Settles O16: the bits of the shift, and its value, which dividing never moves away from 0. -/
theorem asrIsFloorDivision : Obligations.AsrIsFloorDivision := by
  refine ⟨fun w v s hs => ?_, by decide, by decide⟩
  have hr := asr_of_lt hs v
  have hval := toInt_of_asr hr
  refine ⟨_, hr, fun i hi => ?moved, fun i hi hw => ?vacated, hval, ?magnitude⟩
  case moved => rw [getLsbD_sshiftRight_eq v s (by omega), min_eq_left (by omega)]
  case vacated => rw [getLsbD_sshiftRight_eq v s hw, min_eq_right (by omega)]
  case magnitude =>
    rw [hval, Int.fdiv_eq_ediv_of_nonneg _ (by positivity)]
    exact Int.natAbs_ediv_le_natAbs _ _

/-- Settles O17: the arithmetic shift keeps the sign bit, where the logical shift moves a 0 into it. -/
theorem asrIsNotLogicalShift : Obligations.AsrIsNotLogicalShift := by
  refine ⟨fun w v s hpos hs hneg => ?_, by decide, by decide⟩
  have hmsb : v.msb = true := toInt_neg_iff.mp hneg
  have hasr : (v.sshiftRight s).toInt < 0 := by rw [toInt_neg_iff, BitVec.msb_sshiftRight, hmsb]
  have hlogical : 0 ≤ (v >>> s).toInt := by
    rw [← Int.not_lt, toInt_neg_iff, BitVec.msb_ushiftRight, decide_eq_true hpos]
    exact Bool.false_ne_true
  refine ⟨_, asr_of_lt hs v, fun i hi hw => ?_, hasr, hlogical, fun heq => ?_⟩
  · rw [getLsbD_sshiftRight_eq v s hw, min_eq_right (by omega), ← BitVec.msb_eq_getLsbD_last, hmsb]
  · rw [heq] at hasr
    omega

/-- Settles O18: shifting by 0 inside the domain, no value outside it, and the built-in shifts are at most 4, below
every legal width. -/
theorem asrDomain : Obligations.AsrDomain := by
  refine ⟨fun w v hw => ?_, fun w v s hs => asr_of_ge hs v, rfl, Or.inl rfl, ?_⟩
  · rw [asr_of_lt hw, BitVec.sshiftRight_zero]
  · rintro c ⟨hw, hshift⟩
    exact ⟨show 2 < c.outW by omega, by omega⟩

/-- Settles O19: sign extension keeps the value, and the shifted value is the operand's over 4 or 16. -/
theorem nothingOverflows : Obligations.NothingOverflows := by
  refine ⟨fun tc => ?_, fun ref => ?_, fun v r hlo hhi hr => ?_, fun v r hlo hhi hr => ?_⟩
  · exact ⟨_, sext_of_le (by decide) tc, BitVec.toInt_signExtend_of_le (by decide)⟩
  · exact ⟨_, sext_of_le (by decide) ref, BitVec.toInt_signExtend_of_le (by decide)⟩
  · rw [toInt_of_asr hr, Int.fdiv_eq_ediv_of_nonneg _ (by decide)]
    omega
  · rw [toInt_of_asr hr, Int.fdiv_eq_ediv_of_nonneg _ (by decide)]
    omega

/-- Shifting a signed extract right by `s` is the signed extract without the field's `s` low bits: both copy the same
top bit (R64). -/
theorem bind_asr_extractS {w hi lo s : Nat} (h : lo + s ≤ hi) (h31 : hi ≤ 31) (hk : hi - lo + 1 ≤ w) (f : Frame) :
    (extractS w f hi lo).bind (asr · s) = extractS w f hi (lo + s) := by
  rw [extractS_of_le (by omega) h31 hk, extractS_of_le h h31 (by omega), Option.bind_some, asr_of_lt (by omega)]
  refine congrArg some (BitVec.eq_of_getLsbD_eq fun i hi' => ?_)
  rw [getLsbD_sshiftRight_eq _ s hi', getLsbD_signExtend_extractU f (by omega) (by omega),
    getLsbD_signExtend_extractU f h hi']
  exact congrArg f.getLsbD (by omega)

/-- Settles O20: the two fields of the rule, each with a value at the widths named. -/
theorem shiftOfExtractIsShorterExtract : Obligations.ShiftOfExtractIsShorterExtract := by
  refine ⟨fun w f hw => ⟨?_, ?_⟩, fun w f hw => ⟨?_, ?_⟩⟩
  · rw [extractS_of_le (by decide) (by decide) (by omega), Option.isSome_some]
  · exact bind_asr_extractS (lo := 18) (s := 2) (by decide) (by decide) hw f
  · rw [extractS_of_le (by decide) (by decide) (by omega), Option.isSome_some]
  · exact bind_asr_extractS (lo := 4) (s := 4) (by decide) (by decide) hw f

/-- Settles O21: the settled ports carry the frame's own bits, and a frame may be built with any four of them. -/
theorem demuxRoutesSingleBits : Obligations.DemuxRoutesSingleBits := by
  refine ⟨fun s p => ?_, fun oc scg scv agg => ?_, by decide⟩
  · obtain ⟨-, -, hflags, hfault⟩ := Outputs.areOf_ofFrame (assemble p)
    exact ⟨_, _, _, step_present p s, rfl, rfl, hflags 0 (by decide), hflags 1 (by decide), hflags 2 (by decide),
      hfault⟩
  · exact ⟨_, demux_encode ⟨0, 0, false, agg, false, scv, scg, oc⟩⟩

end Machine

end Sys2Proof
end

section
/-! PROOFS of the family 41_temperature. The integer that each temperature operation drives, the ranges of the two
outputs, and the frame bits an operation reads. -/

namespace Sys2Proof.Machine

/-! ### TC_CELSIUS (R65, R66, R67) -/

/-- TC_CELSIUS drives `tc_c`, and nothing else, with the field's value over 4, rounded down (R65). -/
theorem exec_tcCelsius (tc : BitVec 14) (s : State) : ∃ v : BitVec 16,
    exec (.tcCelsius tc) s = .next { s with tcC := some v } ∧ v.toInt = tc.toInt.fdiv 4 :=
  ⟨_, exec_eq (.tcCelsius tc) s, toInt_temperature (by decide) tc⟩

/-- Settles O22: the operation's value, and on a frame the field's value by the rules' arithmetic. -/
theorem tcCelsiusDrivesFloorOfQuarters : Obligations.TcCelsiusDrivesFloorOfQuarters := by
  refine ⟨exec_tcCelsius, fun f s => ?_⟩
  rw [← toInt_tcField]
  exact exec_tcCelsius (tcField f) s

/-- The word that TC_CELSIUS drives, from the integer it stands for. -/
theorem exec_tcCelsius_of_fdiv {tc : BitVec 14} {c : Int} (h : tc.toInt.fdiv 4 = c) (s : State) :
    exec (.tcCelsius tc) s = .next { s with tcC := some (BitVec.ofInt 16 c) } := by
  obtain ⟨v, hv, hvInt⟩ := exec_tcCelsius tc s
  rw [hv, ← h, ← hvInt, BitVec.ofInt_toInt]

/-- Settles O24: rounding the 14-bit range down to whole degrees gives the range, and drops the remainder by 4. -/
theorem tcCelsiusRangeAndRoundTrip : Obligations.TcCelsiusRangeAndRoundTrip := by
  refine ⟨fun tc s => ?_, fun c d s hc hc' hd hd' => exec_tcCelsius_of_fdiv ?_ s⟩
  · obtain ⟨v, hv, hvInt⟩ := exec_tcCelsius tc s
    have hlo : -8192 ≤ tc.toInt := BitVec.le_toInt tc
    have hhi : tc.toInt < 8192 := BitVec.toInt_lt
    rw [Int.fdiv_eq_ediv_of_nonneg _ (by decide)] at hvInt
    exact ⟨v, hv, by omega, by omega, by omega⟩
  · have hq : (BitVec.ofInt 14 (4 * c + d)).toInt = 4 * c + d :=
      BitVec.toInt_ofInt_eq_self (by decide) (by omega) (by omega)
    rw [hq, Int.fdiv_eq_ediv_of_nonneg _ (by decide)]
    omega

/-- Settles O23: rounding down keeps a negative value negative, where the zero extension makes it positive. -/
theorem tcCelsiusKeepsNegativeFields : Obligations.TcCelsiusKeepsNegativeFields := by
  refine ⟨fun tc s hmsb => ?_, by decide, exec_tcCelsius_of_fdiv (c := -1) (by decide), by decide⟩
  obtain ⟨v, hv, hvInt⟩ := exec_tcCelsius tc s
  have hneg : tc.toInt < 0 := toInt_neg_iff.mpr hmsb
  rw [Int.fdiv_eq_ediv_of_nonneg _ (by decide)] at hvInt
  exact ⟨v, hv, by omega⟩

/-! ### REF_CELSIUS (R68, R70) -/

/-- REF_CELSIUS drives `ref_c`, and nothing else, with the field's own value (R68). -/
theorem exec_refCelsius (ref : BitVec 12) (s : State) : ∃ v : BitVec 16,
    exec (.refCelsius ref) s = .next { s with refC := some v } ∧ v.toInt = ref.toInt :=
  ⟨_, exec_eq (.refCelsius ref) s, BitVec.toInt_signExtend_of_le (by decide)⟩

/-- Settles O25: the operation's value, and on a frame the field's value by the rules' arithmetic. -/
theorem refCelsiusDrivesFieldValue : Obligations.RefCelsiusDrivesFieldValue := by
  refine ⟨exec_refCelsius, fun f s => ?_⟩
  rw [← toInt_refField]
  exact exec_refCelsius (refField f) s

/-- REF_CELSIUS drives the word of an integer in its range exactly when the field has that value (R70). -/
theorem exec_refCelsius_eq_iff {n : Int} (hlo : -2048 ≤ n) (hhi : n ≤ 2047) (ref : BitVec 12) (s : State) :
    exec (.refCelsius ref) s = .next { s with refC := some (BitVec.ofInt 16 n) } ↔ ref.toInt = n := by
  obtain ⟨v, hv, hvInt⟩ := exec_refCelsius ref s
  have hn : (BitVec.ofInt 16 n).toInt = n := BitVec.toInt_ofInt_eq_self (by decide) (by omega) (by omega)
  rw [hv, ← hvInt]
  constructor
  · intro h
    have hvn : v = BitVec.ofInt 16 n := Option.some.inj (congrArg State.refC (Host.Outcome.next.inj h))
    rw [hvn, hn]
  · rintro rfl
    rw [BitVec.ofInt_toInt]

/-- With a shift of 4 the reference datapath gives the signed value of the field's upper eight bits (R64, R70). -/
theorem temperature_refField_four (f : Frame) :
    temperature 16 4 (refField f) = some ((extractU f 15 8).signExtend 16) :=
  (bind_asr_extractS (w := 16) (lo := 4) (s := 4) (hi := 15) (by decide) (by decide) (by decide) f).trans
    (extractS_of_le (by decide) (by decide) (by decide) f)

/-- Settles O26: the field's value bounds the output and determines the field; with a shift of 4 one word is both the
floor and the shorter field. -/
theorem refCelsiusRangeAndAlternative : Obligations.RefCelsiusRangeAndAlternative := by
  refine ⟨fun ref s => ?range, fun n hlo hhi => ?reached, fun f => ?alternative⟩
  case range =>
    obtain ⟨v, hv, hvInt⟩ := exec_refCelsius ref s
    have hlo : -2048 ≤ ref.toInt := BitVec.le_toInt ref
    have hhi : ref.toInt < 2048 := BitVec.toInt_lt
    exact ⟨v, hv, by omega, by omega⟩
  case reached =>
    have hn : (BitVec.ofInt 12 n).toInt = n := BitVec.toInt_ofInt_eq_self (by decide) hlo (by omega)
    refine ⟨BitVec.ofInt 12 n, fun s => (exec_refCelsius_eq_iff hlo hhi _ s).mpr hn, fun ref s h => ?_⟩
    rw [← (exec_refCelsius_eq_iff hlo hhi ref s).mp h, BitVec.ofInt_toInt]
  case alternative =>
    have hv := temperature_refField_four f
    have hext : ((extractU f 15 8).signExtend 16).toInt = (extractU f 15 8).toInt :=
      BitVec.toInt_signExtend_of_le (by decide)
    obtain ⟨t, ht, htInt⟩ := exists_temperature (w := 16) (s := 4) (by decide) (by decide) (refField f)
    obtain rfl : t = _ := Option.some.inj (ht.symm.trans hv)
    have hlo : -128 ≤ (extractU f 15 8).toInt := BitVec.le_toInt _
    have hhi : (extractU f 15 8).toInt < 128 := BitVec.toInt_lt
    exact ⟨_, hv, htInt, hext, by omega, by omega⟩

/-! ### The bits an operation reads (R71) -/

/-- Where two frames agree in the bits of a port's mask, the operation read from one drives, in every state, what the
one read from the other does (R71). -/
theorem exec_decodeAt_of_agree {port : Port} {f g : Frame}
    (h : ∀ i, i < 32 → (operandMask port).getLsbD i = true → f.getLsbD i = g.getLsbD i) (s : State) :
    exec (decodeAt port f) s = .next (s.drive (decodeAt port g)) := by
  rw [decodeAt_congr h, exec_eq]

/-- Settles O33: each port's mask holds the bits of its field only, and what the operation drives does not come from
the state. -/
theorem operationsReadOnlyTheirFields : Obligations.OperationsReadOnlyTheirFields := by
  intro f g s s'
  refine ⟨fun h => ⟨_, exec_decodeAt_of_agree ?tc s, exec_eq _ s'⟩,
    fun h => ⟨_, exec_decodeAt_of_agree ?ref s, exec_eq _ s'⟩,
    fun h => ⟨_, exec_decodeAt_of_agree ?faults s, exec_eq _ s'⟩,
    fun h => ⟨_, exec_decodeAt_of_agree ?hasFault s, exec_eq _ s'⟩⟩ <;>
    intro i hi hmask <;> rw [getLsbD_operandMask _ hi, decide_eq_true_iff] at hmask
  case tc => exact h i hmask hi
  case ref =>
    obtain ⟨hlo, hhi⟩ := hmask
    exact h i hlo hhi
  case faults => exact h i hmask
  case hasFault => rw [hmask, h]

end Sys2Proof.Machine
end

section
/-! PROOFS of the family 42_fault_flags. The two fault ports of a frame: the frame's slice 2:0 and its bit 16, read by
a consumer, and nothing kept of an earlier frame. -/

namespace Sys2Proof.Machine

/-! ### The port `faults[2:0]` (R72, R73) -/

/-- A bit of the slice `frame[2:0]` is the frame's own bit. -/
theorem getLsbD_extractU_two_zero (f : Frame) {i : Nat} (hi : i < 3) :
    (extractU f 2 0).getLsbD i = f.getLsbD i := by
  rw [getLsbD_extractU, decide_eq_true hi, Bool.true_and, Nat.zero_add]

/-- The three flags of a frame, packed into the port, are the frame's slice 2:0 (R72). -/
theorem Outputs.ofFrame_faults (f : Frame) : (Outputs.ofFrame f).faults = extractU f 2 0 := by
  obtain ⟨-, -, hflags, -⟩ := Outputs.areOf_ofFrame f
  refine BitVec.eq_of_getLsbD_eq fun i hi => ?_
  rw [hflags i hi, getLsbD_extractU_two_zero f hi]

/-- Stepping on a frame leaves its slice 2:0 on the port `faults[2:0]`. -/
theorem State.settledOn_faults (p : InputPorts) (n : Nat) :
    (State.settledOn p n).faults = some (extractU (assemble p) 2 0) :=
  congrArg some (Outputs.ofFrame_faults (assemble p))

/-- The set a port value stands for holds exactly the faults present in it (R72). -/
theorem mem_faultSet {v : BitVec 3} {x : SensorFault} : x ∈ faultSet v ↔ faultPresent v x = true := by
  cases x <;> simp [faultSet]

/-- Settles O29: the operation packs its operands into the port, and on a frame the packed port is the slice, whose
bits say which faults are in the set. -/
theorem faultFlagsDrivesThreeBits : Obligations.FaultFlagsDrivesThreeBits := by
  refine ⟨fun oc scg scv s => ⟨packFaults oc scg scv, exec_eq (.faultFlags oc scg scv) s,
    getLsbD_packFaults oc scg scv⟩, fun f s => ?_⟩
  have hbit (i : Nat) (hi : i < 3) : (extractU f 2 0).getLsbD i = true ↔ f.getLsbD i = true := by
    rw [getLsbD_extractU_two_zero f hi]
  refine ⟨?_, mem_faultSet.trans (hbit 0 (by decide)), mem_faultSet.trans (hbit 1 (by decide)),
    mem_faultSet.trans (hbit 2 (by decide))⟩
  rw [← Outputs.ofFrame_faults]
  exact exec_eq (decodeAt .faults f) s

/-- Every value of the port is the slice of some frame: the one with that value in its low bits. -/
theorem extractU_setWidth (v : BitVec 3) : extractU (v.setWidth 32) 2 0 = v := by
  refine BitVec.eq_of_getLsbD_eq fun i hi => ?_
  rw [getLsbD_extractU_two_zero _ hi, BitVec.getLsbD_setWidth, decide_eq_true (by omega), Bool.true_and]

/-- Settles O30: each bit of the settled port is the frame's own, and the frame with the value in its low bits gives
any value. -/
theorem faultFlagsAreIndependent : Obligations.FaultFlagsAreIndependent := by
  refine ⟨fun p q s s' i hi hbit => ?_, fun v s => ⟨portsOfFrame (v.setWidth 32), _, step_present _ s, ?_⟩⟩
  · refine ⟨_, _, _, _, step_present p s, step_present q s', State.settledOn_faults p s.draws,
      State.settledOn_faults q s'.draws, ?_⟩
    rw [getLsbD_extractU_two_zero _ hi, getLsbD_extractU_two_zero _ hi, hbit]
  · rw [State.settledOn_faults, assemble_portsOfFrame, extractU_setWidth]

/-! ### The port `has_fault` (R74, R75) -/

/-- Stepping on a frame leaves its bit 16 on the port `has_fault`. -/
theorem State.settledOn_hasFault (p : InputPorts) (n : Nat) :
    (State.settledOn p n).hasFault = some ((assemble p).getLsbD 16) := rfl

/-- Settles O31: the settled ports carry bit 16 and the slice 2:0, each without regard to the other. -/
theorem hasFaultDrivesBit16 : Obligations.HasFaultDrivesBit16 := by
  refine ⟨fun b s => exec_eq (.hasFault b) s, fun f s => exec_eq (decodeAt .hasFault f) s,
    fun p s hagg hflags => ⟨_, step_present p s, ?_, ?_⟩,
    fun p s hagg hflags => ⟨_, _, step_present p s, ?_, State.settledOn_faults p s.draws, hflags⟩⟩
  · rw [State.settledOn_hasFault, hagg]
  · rw [State.settledOn_faults, hflags]
  · rw [State.settledOn_hasFault, hagg]

/-- On the outputs of a frame the consumer's check holds exactly where the frame is well-formed (R75). -/
theorem Outputs.areOf.flagsAgree_iff {o : Outputs} {f : Frame} (h : o.areOf f) :
    flagsAgree o = true ↔ frameConsistent f := by
  obtain ⟨-, -, hflags, hfault⟩ := h
  rw [flagsAgree, beq_iff_eq, faultOc, faultScg, faultScv, hfault, hflags 0 (by decide), hflags 1 (by decide),
    hflags 2 (by decide), frameConsistent]

/-- Settles O32: the step gives the rules' outputs of any frame, and the consumer's check on those says whether the
frame is well-formed. -/
theorem consistencyIsLeftToTheConsumer : Obligations.ConsistencyIsLeftToTheConsumer := by
  intro p s
  obtain ⟨-, -, hflags, hfault⟩ := Outputs.areOf_ofFrame (assemble p)
  have hcheck := (Outputs.areOf_ofFrame (assemble p)).flagsAgree_iff
  exact ⟨_, _, step_present p s, observe_settledOn p s.draws, hfault, hflags, hcheck,
    fun hcons => beq_iff_eq.mp (hcheck.mpr hcons)⟩

/-! ### No latching (R76) -/

/-- Settles O41: the step settles the ports on the second frame whatever they carried when it arrived, and keeps only
the counter. -/
theorem nothingIsLatched : Obligations.NothingIsLatched := by
  intro p q s
  obtain ⟨-, -, hflags, -⟩ := Outputs.areOf_ofFrame (assemble q)
  exact ⟨_, State.settledOn q s.draws, step_present p s, step_present q _, step_of_input rfl, step_present q _,
    fun i hi => ⟨_, rfl, hflags i hi⟩, State.settledOn_hasFault q s.draws⟩

end Sys2Proof.Machine
end

section
/-! PROOFS of the family 60_exceptions. The boundary's answer to a buffer of any length, and the temperatures of frames
that differ in other bits than the two fields'. -/

namespace Sys2Proof

/-! ### The boundary (R78) -/

/-- A buffer of four bytes fills the ports in order (R26). -/
theorem exists_ports_of_bufferWellFormed {bs : List Byte} (h : bufferWellFormed bs) :
    ∃ p : InputPorts, bs = [p.b0, p.b1, p.b2, p.b3] := by
  obtain ⟨b0, b1, b2, b3, rfl⟩ := List.length_eq_four.mp h
  exact ⟨⟨b0, b1, b2, b3⟩, rfl⟩

/-- A buffer of any other length fills no ports, and its length is named (R78). -/
theorem portsOfBytes_of_not_bufferWellFormed {bs : List Byte} (h : ¬ bufferWellFormed bs) :
    portsOfBytes bs = .error (.wrongLength bs.length) := by
  unfold portsOfBytes
  split
  · exact absurd rfl h
  · rfl

/-- The decoder reads no operation from bytes that fill no ports. -/
theorem decode_of_portsOfBytes_error {bs : List Byte} {e : DecodeReject} (h : portsOfBytes bs = .error e) :
    decode bs = .error e := by
  rw [decode, h]

namespace Machine

/-- Bytes that fill no ports are refused by their length, whatever the state (R78). -/
theorem presentBytes_of_portsOfBytes_error {bs : List Byte} {n : Nat} (h : portsOfBytes bs = .error (.wrongLength n))
    (s : State) : presentBytes bs s = .refused (.wrongLength n) := by
  rw [presentBytes, h]

/-- Settles O6: the boundary and the decoder both follow `portsOfBytes`, which is in error by the length exactly where
the buffer is not four bytes long. -/
theorem wrongLengthRefusedAtBoundary : Obligations.WrongLengthRefusedAtBoundary := by
  refine fun bs s => ⟨fun hbad => ?refused, fun hgood => ?presented⟩
  case refused =>
    have herr := portsOfBytes_of_not_bufferWellFormed hbad
    exact ⟨presentBytes_of_portsOfBytes_error herr s, decode_of_portsOfBytes_error herr⟩
  case presented =>
    obtain ⟨p, rfl⟩ := exists_ports_of_bufferWellFormed hgood
    exact ⟨p, rfl, presentBytes_eq_next.mpr ⟨p, rfl, rfl⟩, rfl⟩

/-! ### Sensor faults are data (R79) -/

/-- `tc_c` depends on the thermocouple field alone (R65). -/
theorem Outputs.ofFrame_tcC_congr {f g : Frame} (h : tcField f = tcField g) :
    (Outputs.ofFrame f).tcC = (Outputs.ofFrame g).tcC := by
  simp only [Outputs.ofFrame, h]

/-- `ref_c` depends on the reference field alone (R68). -/
theorem Outputs.ofFrame_refC_congr {f g : Frame} (h : refField f = refField g) :
    (Outputs.ofFrame f).refC = (Outputs.ofFrame g).refC := by
  simp only [Outputs.ofFrame, h]

/-- Settles O42: both steps settle the ports, and each temperature port depends on its own field alone. -/
theorem sensorFaultsAreData : Obligations.SensorFaultsAreData := by
  intro p q s htc href
  obtain ⟨htcInt, hrefInt, -, -⟩ := Outputs.areOf_ofFrame (assemble p)
  exact ⟨_, _, step_present p s, step_present q s, congrArg some (Outputs.ofFrame_tcC_congr htc),
    congrArg some (Outputs.ofFrame_refC_congr href), ⟨_, rfl, htcInt⟩, ⟨_, rfl, hrefInt⟩⟩

end Machine

end Sys2Proof
end

section
/-! PROOFS of the family 70_reset_and_hazards. The ports before the first frame, between a frame and its step, and
after the step; the invariant of the ports; and whole programs. -/

namespace Sys2Proof.Machine

/-! ### The invariant of the ports (R91) -/

/-- A step goes on only with a frame on the input ports, and then settles the ports on it (R27). -/
theorem step_eq_next {s t : State} (h : step s = .next t) : ∃ p, s.input = some p ∧ t = State.settledOn p s.draws :=
  evaluate_eq_next h

/-- Ports settled on a frame carry its outputs by the rules. -/
theorem State.settled_settledOn (p : InputPorts) (n : Nat) : (State.settledOn p n).settled :=
  ⟨p, Outputs.ofFrame (assemble p), Outputs.areOf_ofFrame (assemble p), rfl⟩

/-- Where all four ports carry the rules' outputs of the frame presented, the invariant holds. -/
theorem State.settled.inv {s : State} (h : s.settled) : s.Inv := by
  obtain ⟨p, o, ⟨htc, href, hflags, hfault⟩, hs⟩ := h
  rw [hs]
  constructor
  case noFrame => exact nofun
  case tc => rintro _ _ ⟨⟩ ⟨⟩; exact htc
  case ref => rintro _ _ ⟨⟩ ⟨⟩; exact href
  case faults => rintro _ _ i ⟨⟩ ⟨⟩; exact hflags i
  case hasFault => rintro _ _ ⟨⟩ ⟨⟩; exact hfault

/-- Settles O48: whatever the ports carried, a step that goes on leaves them settled, which is more than the
invariant asks. -/
theorem stepKeepsTheInvariant : Obligations.StepKeepsTheInvariant := by
  intro s t _ hstep
  obtain ⟨p, -, rfl⟩ := step_eq_next hstep
  have hsettled := State.settled_settledOn p s.draws
  exact ⟨hsettled.inv, hsettled⟩

/-- The invariant holds where no output port carries a value: up to the counter, such a state without a frame is the
one at reset. -/
theorem State.inv_of_no_output (i : Option InputPorts) (n : Nat) : (⟨i, none, none, none, none, n⟩ : State).Inv where
  noFrame := by rintro ⟨⟩; rfl
  tc := nofun
  ref := nofun
  faults := nofun
  hasFault := nofun

/-- Settles O47: no output carries a value at reset or where the frame on the ports was just changed, and presenting
the frame already there leaves the state as it is. -/
theorem invariantHoldsAtReset : Obligations.InvariantHoldsAtReset := by
  refine ⟨rfl, State.inv_of_no_output none 0, fun p s hs => ?_⟩
  by_cases hp : s.input = some p
  · rw [State.present_same s p hp]
    exact hs.resolve_right (not_not_intro hp)
  · rw [State.present_new s p hp]
    exact State.inv_of_no_output (some p) s.draws

/-! ### Whole programs (R97) -/

/-- The tuples that the datapath gives for the frames of a program's lines. -/
def lineOutputs (ps : Program) : List Outputs := ps.map fun p => Outputs.ofFrame (assemble p)

/-- The ports after each of a program's lines in turn has settled them. -/
def State.afterLines (s : State) (ps : Program) : State := ps.foldl (fun t p => State.settledOn p t.draws) s

/-- A line's tuple is the one of its own frame. -/
theorem getElem?_lineOutputs {ps : Program} {i : Nat} {p : InputPorts} (h : ps[i]? = some p) :
    (lineOutputs ps)[i]? = some (Outputs.ofFrame (assemble p)) := by
  rw [lineOutputs, List.getElem?_map, h, Option.map_some]

/-- The lines' tuples are those of the rules' arithmetic. -/
theorem forall₂_areOf_lineOutputs (ps : Program) :
    List.Forall₂ (fun (p : InputPorts) (o : Outputs) => o.areOf (assemble p)) ps (lineOutputs ps) :=
  List.forall₂_map_right_iff.mpr (List.forall₂_same.mpr fun p _ => Outputs.areOf_ofFrame (assemble p))

/-- The last line's frame stays on the input ports. -/
theorem State.afterLines_input (s : State) (ps : Program) :
    (s.afterLines ps).input = ps.getLast?.or s.input := by
  induction ps generalizing s with
  | nil => rfl
  | cons p ps ih =>
    calc ((State.settledOn p s.draws).afterLines ps).input
      _ = ps.getLast?.or (some p) := ih _
      _ = (p :: ps).getLast?.or s.input := by cases h : ps.getLast? <;> simp [List.getLast?_cons, h]

/-- Every program runs to its end from every state, each line settling the ports on its frame (R97). -/
theorem runProgram_eq (ps : Program) (s : State) : runProgram ps s = .next (lineOutputs ps, s.afterLines ps) := by
  induction ps generalizing s with
  | nil => rfl
  | cons p ps ih =>
    exact runProgram_cons_eq_next.mpr ⟨_, _, _, step_present p s, observe_settledOn p s.draws, ih _, rfl⟩

/-- The same run where the earlier lines' values stay on the output ports: a step reads the frame alone (R76, R96). -/
theorem runOverStaleOutputs_eq (ps : Program) (s : State) :
    runOverStaleOutputs ps s = .next (lineOutputs ps, s.afterLines ps) := by
  induction ps generalizing s with
  | nil => rfl
  | cons p ps ih =>
    have hstep : step (s.replaceInput p) = .next (State.settledOn p s.draws) := step_of_input (s.replaceInput_input p)
    exact runOverStaleOutputs_cons_eq_next.mpr ⟨_, _, _, hstep, observe_settledOn p s.draws, ih _, rfl⟩

/-- Settles O49: the run's tuples and end state, read off line by line. -/
theorem programObservesEachFrame : Obligations.ProgramObservesEachFrame := fun ps s =>
  ⟨_, _, runProgram_eq ps s, forall₂_areOf_lineOutputs ps, s.afterLines_input ps⟩

/-- Settles O50: both runs observe each line's frame, whatever they started from, and so does the plain run. -/
theorem programLinesAreIndependent : Obligations.ProgramLinesAreIndependent := by
  intro ps qs s s'
  refine ⟨_, _, _, _, _, runOverStaleOutputs_eq ps s, runOverStaleOutputs_eq qs s', List.length_map _,
    List.length_map _, fun i j hi hij => ?_, runProgram_eq ps s⟩
  have hp : ps[i]? = some ps[i] := List.getElem?_eq_getElem hi
  exact ⟨_, getElem?_lineOutputs hp, getElem?_lineOutputs (hij.symm.trans hp)⟩

/-! ### Before the first frame (R91) -/

/-- Observing without a frame faults at the first read. -/
theorem observe_none {s : State} (h : s.input = none) : observe s = .fault .noFramePresented := by
  rw [observe, readTcC, readOutput_none h, andThen_fault]

/-- Settles O44: without a frame each read faults, and the step on the first frame after reset settles the ports. -/
theorem noValueBeforeTheFirstFrame : Obligations.NoValueBeforeTheFirstFrame :=
  ⟨fun _ h => ⟨readOutput_none h, readOutput_none h, readOutput_none h, readOutput_none h, observe_none h⟩,
    fun p => ⟨_, _, step_present p State.reset, observe_settledOn p _, Outputs.areOf_ofFrame (assemble p)⟩⟩

/-- Settles O45: the step's answer where a frame is presented and where none is. -/
theorem stepGoesOnExactlyWithAFrame : Obligations.StepGoesOnExactlyWithAFrame := by
  intro s
  cases hs : s.input with
  | none =>
    rw [step_of_no_input hs]
    exact ⟨fun _ => rfl, ⟨nofun, nofun⟩, nofun⟩
  | some p =>
    rw [step_of_input hs]
    exact ⟨nofun, ⟨fun _ => ⟨_, rfl⟩, fun _ => rfl⟩, nofun⟩

/-! ### Between a frame and its step, and after it (R99) -/

section
variable {α : Type} {free : Nat → α} {s : State}

/-- A port that carries a value shows it, and reading it changes nothing. -/
theorem readOutput_some (h : s.input.isSome = true) (a : α) : readOutput free (some a) s = .next (a, s) :=
  readOutput_eq_next.mpr ⟨h, .inl ⟨rfl, rfl⟩⟩

/-- A port that has not settled shows the next free value, and reading it advances the counter alone. -/
theorem readOutput_unsettled (h : s.input.isSome = true) :
    readOutput free none s = .next (free s.draws, { s with draws := s.draws + 1 }) :=
  readOutput_eq_next.mpr ⟨h, .inr ⟨rfl, rfl⟩⟩

/-- With a frame presented no read stops. -/
theorem exists_readOutput (h : s.input.isSome = true) (v : Option α) : ∃ r, readOutput free v s = .next r := by
  cases v with
  | none => exact ⟨_, readOutput_unsettled h⟩
  | some a => exact ⟨_, readOutput_some h a⟩

end

/-- Settles O46: every read goes on once a frame is presented; a frame just changed leaves no value on the ports, and
the step leaves the rules' values. -/
theorem outputsUnsettledUntilTheStep : Obligations.OutputsUnsettledUntilTheStep := by
  refine ⟨fun s hs => ?goesOn, fun p s hp => ?unsettled, fun p s => ?settled⟩
  case goesOn =>
    obtain ⟨o, n, hobserve⟩ := observe_of_input hs
    exact ⟨exists_readOutput hs _, exists_readOutput hs _, exists_readOutput hs _, exists_readOutput hs _, _, hobserve⟩
  case unsettled =>
    rw [State.present_new s p hp]
    exact ⟨⟨_, readOutput_unsettled rfl⟩, ⟨_, readOutput_unsettled rfl⟩, ⟨_, readOutput_unsettled rfl⟩,
      ⟨_, readOutput_unsettled rfl⟩⟩
  case settled =>
    exact ⟨_, _, _, _, _, step_present p s, readOutput_some rfl _, readOutput_some rfl _, readOutput_some rfl _,
      readOutput_some rfl _, Outputs.areOf_ofFrame (assemble p)⟩

/-- Settles O53: settled ports are a fixed point of presenting their own frame. -/
theorem sameFrameKeepsItsOutputs : Obligations.SameFrameKeepsItsOutputs := by
  intro s p n
  have hsame : (State.present p)^[n] (State.settledOn p s.draws) = State.settledOn p s.draws :=
    Function.iterate_fixed (State.present_same _ p rfl) n
  refine ⟨_, _, step_present p s, hsame, ?_, Outputs.areOf_ofFrame (assemble p)⟩
  rw [hsame]
  exact observe_settledOn p s.draws

end Sys2Proof.Machine
end

section
/-! PROOFS of the family other. What the decoder reads from four bytes, row by row of R33's table, and the frames that
spec/95 writes out. -/

namespace Sys2Proof

/-- The decoder's answer in terms of the bytes (R33, R52). Bit 1 of byte1 and bit 3 of byte3, the reserved bits of R48,
do not occur in it. -/
theorem decode_four_bytes (b0 b1 b2 b3 : Byte) :
    decode [b0, b1, b2, b3] =
      .ok [.tcCelsius (b0 ++ b1.extractLsb 7 2), .refCelsius (b2 ++ b3.extractLsb 7 4),
        .faultFlags (b3.getLsbD 0) (b3.getLsbD 1) (b3.getLsbD 2), .hasFault (b1.getLsbD 0)] := by
  obtain ⟨htc, -, hagg, href, -, hscv, hscg, hoc⟩ := fieldsLieInTheirBytes ⟨b0, b1, b2, b3⟩
  simp only [decode, portsOfBytes, decodeFrame, decodeAt, htc, href, hoc, hscg, hscv, hagg]

/-- Settles O11: each frame's operands are computed from its bytes, and the frame of V7 differs from the first one in
the reserved bits alone, which the decoder's answer does not read. -/
theorem specFramesDecode : Obligations.SpecFramesDecode := by
  simp only [Obligations.SpecFramesDecode, decode_four_bytes]
  exact ⟨rfl, rfl, rfl, rfl, rfl⟩

end Sys2Proof
end
